-- ==== Sys2Proof/Word.lean ====
section
/-! DEFINITION. The word types of the core (spec/10_state.md R10, R12, R13; spec/30_encoding.md R60). -/

namespace Sys2Proof

/-- 8 bits: a general register, a timer, a byte of memory. -/
abbrev Byte := BitVec 8

/-- 16 bits: an instruction word, the index register, the program counter, a call-stack entry. -/
abbrev Word := BitVec 16

/-- The number of a general register, 0..15: always a 4-bit field or a bounded loop index, so no other can arise (R10). -/
abbrev Reg := Fin 16

end Sys2Proof
end

