-- ==== Sys2Proof/Syntax.lean ====
section
/-! DEFINITION. The instructions: one constructor per row of spec/opcode_table.json, in the table's order
(spec/30_encoding.md R66). Each field has exactly the range its bits in the word give it (R61, R62). -/

namespace Sys2Proof

/-- The 34 instructions of spec/30_encoding.md R66. `x`, `y`: register numbers; `kk`: 8-bit constant; `nnn`: 12-bit
address; `n`: 4-bit row count. The `y` of `shr` and `shl` is decoded and ignored (R67). -/
inductive Instr where
  | cls                               -- 00E0  CLS
  | ret                               -- 00EE  RET
  | jp (nnn : BitVec 12)              -- 1nnn  JP nnn
  | call (nnn : BitVec 12)            -- 2nnn  CALL nnn
  | seImm (x : Reg) (kk : Byte)       -- 3xkk  SE Vx, kk
  | sneImm (x : Reg) (kk : Byte)      -- 4xkk  SNE Vx, kk
  | seReg (x y : Reg)                 -- 5xy0  SE Vx, Vy
  | ldImm (x : Reg) (kk : Byte)       -- 6xkk  LD Vx, kk
  | addImm (x : Reg) (kk : Byte)      -- 7xkk  ADD Vx, kk
  | ldReg (x y : Reg)                 -- 8xy0  LD Vx, Vy
  | orReg (x y : Reg)                 -- 8xy1  OR Vx, Vy
  | andReg (x y : Reg)                -- 8xy2  AND Vx, Vy
  | xorReg (x y : Reg)                -- 8xy3  XOR Vx, Vy
  | addReg (x y : Reg)                -- 8xy4  ADD Vx, Vy
  | sub (x y : Reg)                   -- 8xy5  SUB Vx, Vy
  | shr (x y : Reg)                   -- 8xy6  SHR Vx
  | subn (x y : Reg)                  -- 8xy7  SUBN Vx, Vy
  | shl (x y : Reg)                   -- 8xyE  SHL Vx
  | sneReg (x y : Reg)                -- 9xy0  SNE Vx, Vy
  | ldI (nnn : BitVec 12)             -- Annn  LD I, nnn
  | jpV0 (nnn : BitVec 12)            -- Bnnn  JP V0, nnn
  | rnd (x : Reg) (kk : Byte)         -- Cxkk  RND Vx, kk
  | drw (x y : Reg) (n : BitVec 4)    -- Dxyn  DRW Vx, Vy, n
  | skp (x : Reg)                     -- Ex9E  SKP Vx
  | sknp (x : Reg)                    -- ExA1  SKNP Vx
  | ldVxDT (x : Reg)                  -- Fx07  LD Vx, DT
  | ldVxK (x : Reg)                   -- Fx0A  LD Vx, K
  | ldDTVx (x : Reg)                  -- Fx15  LD DT, Vx
  | ldSTVx (x : Reg)                  -- Fx18  LD ST, Vx
  | addI (x : Reg)                    -- Fx1E  ADD I, Vx
  | ldF (x : Reg)                     -- Fx29  LD F, Vx
  | ldB (x : Reg)                     -- Fx33  LD B, Vx
  | storeRegs (x : Reg)               -- Fx55  LD [I], Vx
  | loadRegs (x : Reg)                -- Fx65  LD Vx, [I]
deriving DecidableEq, Repr

end Sys2Proof
end

