-- ==== Sys2Proof/Decode.lean ====
section
/-! DEFINITION. The decoder (spec/30_encoding.md R63), the opcode map (R66) and the encoder, written from the same tables. -/

namespace Sys2Proof

/-! ## Fields of a word (spec/00_scope.md R5; log 32) -/

/-- The group, `op[15:12]`. -/
def fieldG (op : Word) : BitVec 4 := op.extractLsb' 12 4

/-- The first register number, `op[11:8]`. -/
def fieldX (op : Word) : Reg := (op.extractLsb' 8 4).toFin

/-- The second register number, `op[7:4]`. -/
def fieldY (op : Word) : Reg := (op.extractLsb' 4 4).toFin

/-- The low nibble, `op[3:0]`. -/
def fieldN (op : Word) : BitVec 4 := op.extractLsb' 0 4

/-- The low byte, `op[7:0]`. -/
def fieldKK (op : Word) : Byte := op.extractLsb' 0 8

/-- The address field, `op[11:0]`. -/
def fieldNNN (op : Word) : BitVec 12 := op.extractLsb' 0 12

/-! ## The decoder -/

/-- Group 0x0: the whole word selects (R64). -/
def decode0 (op : Word) : Option Instr :=
  if op = 0x00E0#16 then some .cls
  else if op = 0x00EE#16 then some .ret
  else none

/-- Group 0x8: the low nibble selects (R63). -/
def decode8 (sel : BitVec 4) (x y : Reg) : Option Instr :=
  match sel with
  | 0x0#4 => some (.ldReg x y)
  | 0x1#4 => some (.orReg x y)
  | 0x2#4 => some (.andReg x y)
  | 0x3#4 => some (.xorReg x y)
  | 0x4#4 => some (.addReg x y)
  | 0x5#4 => some (.sub x y)
  | 0x6#4 => some (.shr x y)
  | 0x7#4 => some (.subn x y)
  | 0xE#4 => some (.shl x y)
  | _ => none

/-- Group 0xE: the low byte selects (R63). -/
def decodeE (sel : Byte) (x : Reg) : Option Instr :=
  match sel with
  | 0x9E#8 => some (.skp x)
  | 0xA1#8 => some (.sknp x)
  | _ => none

/-- Group 0xF: the low byte selects (R63). -/
def decodeF (sel : Byte) (x : Reg) : Option Instr :=
  match sel with
  | 0x07#8 => some (.ldVxDT x)
  | 0x0A#8 => some (.ldVxK x)
  | 0x15#8 => some (.ldDTVx x)
  | 0x18#8 => some (.ldSTVx x)
  | 0x1E#8 => some (.addI x)
  | 0x29#8 => some (.ldF x)
  | 0x33#8 => some (.ldB x)
  | 0x55#8 => some (.storeRegs x)
  | 0x65#8 => some (.loadRegs x)
  | _ => none

/-- The decode procedure of R63: total on all 65536 words; `none` is an unknown opcode (R68). Groups 5 and 9 need the low
nibble 0 (R65; log 21). -/
def decode (op : Word) : Option Instr :=
  match fieldG op with
  | 0x0#4 => decode0 op
  | 0x1#4 => some (.jp (fieldNNN op))
  | 0x2#4 => some (.call (fieldNNN op))
  | 0x3#4 => some (.seImm (fieldX op) (fieldKK op))
  | 0x4#4 => some (.sneImm (fieldX op) (fieldKK op))
  | 0x5#4 => if fieldN op = 0x0#4 then some (.seReg (fieldX op) (fieldY op)) else none
  | 0x6#4 => some (.ldImm (fieldX op) (fieldKK op))
  | 0x7#4 => some (.addImm (fieldX op) (fieldKK op))
  | 0x8#4 => decode8 (fieldN op) (fieldX op) (fieldY op)
  | 0x9#4 => if fieldN op = 0x0#4 then some (.sneReg (fieldX op) (fieldY op)) else none
  | 0xA#4 => some (.ldI (fieldNNN op))
  | 0xB#4 => some (.jpV0 (fieldNNN op))
  | 0xC#4 => some (.rnd (fieldX op) (fieldKK op))
  | 0xD#4 => some (.drw (fieldX op) (fieldY op) (fieldN op))
  | 0xE#4 => decodeE (fieldKK op) (fieldX op)
  | _ => decodeF (fieldKK op) (fieldX op)

/-! ## Bytes -/

/-- The instruction word of two bytes, the first at the lower address: a big-endian pair (spec/20_memory.md R42). -/
def wordOfBytes (hi lo : Byte) : Word := hi ++ lo

/-- The two bytes of a word as memory holds them, the first at the lower address (R42). -/
def bytesOfWord (op : Word) : List Byte := [op.extractLsb' 8 8, op.extractLsb' 0 8]

/-- Why a byte string is no instruction. -/
inductive DecodeReject where
  /-- Fewer than the two bytes of an instruction (R60). -/
  | truncated
  /-- The word matches no row of R66 (R68). -/
  | unknownOpcode (op : Word)
deriving DecidableEq, Repr

/-- The decoder on a byte string: the instruction and the bytes after it, or why there is none. -/
def decodeBytes : List Byte → Except DecodeReject (Instr × List Byte)
  | hi :: lo :: rest =>
    match decode (wordOfBytes hi lo) with
    | some i => .ok (i, rest)
    | none => .error (.unknownOpcode (wordOfBytes hi lo))
  | _ => .error .truncated

/-- The bytes of a word numbered as spec/opcode_table.json numbers it (bit 0 the least significant bit of the one 16-bit
word), its bits at `nbits` and above taken as 0. -/
def tableBytes (nbits w : Nat) : List Byte := bytesOfWord (BitVec.ofNat 16 (w % 2 ^ nbits))

/-- The instruction the decoder reads from an instruction whose bits are `w`, numbered as the table numbers them. -/
def decodeTableWord (nbits w : Nat) : Option Instr :=
  match decodeBytes (tableBytes nbits w) with
  | .ok (i, _) => some i
  | .error _ => none

/-! ## The encoder: the formats of R61 and the rows of R66 -/

/-- A register number as its 4-bit field. -/
def regBits (r : Reg) : BitVec 4 := BitVec.ofFin r

/-- Format `NNN`. -/
def fmtNNN (g : BitVec 4) (nnn : BitVec 12) : Word := g ++ nnn

/-- Format `XKK`. -/
def fmtXKK (g : BitVec 4) (x : Reg) (kk : Byte) : Word := g ++ regBits x ++ kk

/-- Formats `XY` and `XYN`. -/
def fmtXYN (g : BitVec 4) (x y : Reg) (n : BitVec 4) : Word := g ++ regBits x ++ regBits y ++ n

/-- Format `XS`. -/
def fmtXS (g : BitVec 4) (x : Reg) (sel : Byte) : Word := g ++ regBits x ++ sel

/-- The word of an instruction (R66). -/
def encode : Instr → Word
  | .cls => 0x00E0#16
  | .ret => 0x00EE#16
  | .jp nnn => fmtNNN 0x1#4 nnn
  | .call nnn => fmtNNN 0x2#4 nnn
  | .seImm x kk => fmtXKK 0x3#4 x kk
  | .sneImm x kk => fmtXKK 0x4#4 x kk
  | .seReg x y => fmtXYN 0x5#4 x y 0x0#4
  | .ldImm x kk => fmtXKK 0x6#4 x kk
  | .addImm x kk => fmtXKK 0x7#4 x kk
  | .ldReg x y => fmtXYN 0x8#4 x y 0x0#4
  | .orReg x y => fmtXYN 0x8#4 x y 0x1#4
  | .andReg x y => fmtXYN 0x8#4 x y 0x2#4
  | .xorReg x y => fmtXYN 0x8#4 x y 0x3#4
  | .addReg x y => fmtXYN 0x8#4 x y 0x4#4
  | .sub x y => fmtXYN 0x8#4 x y 0x5#4
  | .shr x y => fmtXYN 0x8#4 x y 0x6#4
  | .subn x y => fmtXYN 0x8#4 x y 0x7#4
  | .shl x y => fmtXYN 0x8#4 x y 0xE#4
  | .sneReg x y => fmtXYN 0x9#4 x y 0x0#4
  | .ldI nnn => fmtNNN 0xA#4 nnn
  | .jpV0 nnn => fmtNNN 0xB#4 nnn
  | .rnd x kk => fmtXKK 0xC#4 x kk
  | .drw x y n => fmtXYN 0xD#4 x y n
  | .skp x => fmtXS 0xE#4 x 0x9E#8
  | .sknp x => fmtXS 0xE#4 x 0xA1#8
  | .ldVxDT x => fmtXS 0xF#4 x 0x07#8
  | .ldVxK x => fmtXS 0xF#4 x 0x0A#8
  | .ldDTVx x => fmtXS 0xF#4 x 0x15#8
  | .ldSTVx x => fmtXS 0xF#4 x 0x18#8
  | .addI x => fmtXS 0xF#4 x 0x1E#8
  | .ldF x => fmtXS 0xF#4 x 0x29#8
  | .ldB x => fmtXS 0xF#4 x 0x33#8
  | .storeRegs x => fmtXS 0xF#4 x 0x55#8
  | .loadRegs x => fmtXS 0xF#4 x 0x65#8

/-! ## The opcode map of R66 -/

/-- A row of R66: a word is the row's instruction exactly when `op AND mask = bits`. -/
structure OpcodeRow where
  mask : Word
  bits : Word
deriving DecidableEq, Repr

/-- The row of R66 that an instruction stands in: its columns `mask` and `match`. -/
def opcodeRow : Instr → OpcodeRow
  | .cls => ⟨0xFFFF#16, 0x00E0#16⟩
  | .ret => ⟨0xFFFF#16, 0x00EE#16⟩
  | .jp _ => ⟨0xF000#16, 0x1000#16⟩
  | .call _ => ⟨0xF000#16, 0x2000#16⟩
  | .seImm _ _ => ⟨0xF000#16, 0x3000#16⟩
  | .sneImm _ _ => ⟨0xF000#16, 0x4000#16⟩
  | .seReg _ _ => ⟨0xF00F#16, 0x5000#16⟩
  | .ldImm _ _ => ⟨0xF000#16, 0x6000#16⟩
  | .addImm _ _ => ⟨0xF000#16, 0x7000#16⟩
  | .ldReg _ _ => ⟨0xF00F#16, 0x8000#16⟩
  | .orReg _ _ => ⟨0xF00F#16, 0x8001#16⟩
  | .andReg _ _ => ⟨0xF00F#16, 0x8002#16⟩
  | .xorReg _ _ => ⟨0xF00F#16, 0x8003#16⟩
  | .addReg _ _ => ⟨0xF00F#16, 0x8004#16⟩
  | .sub _ _ => ⟨0xF00F#16, 0x8005#16⟩
  | .shr _ _ => ⟨0xF00F#16, 0x8006#16⟩
  | .subn _ _ => ⟨0xF00F#16, 0x8007#16⟩
  | .shl _ _ => ⟨0xF00F#16, 0x800E#16⟩
  | .sneReg _ _ => ⟨0xF00F#16, 0x9000#16⟩
  | .ldI _ => ⟨0xF000#16, 0xA000#16⟩
  | .jpV0 _ => ⟨0xF000#16, 0xB000#16⟩
  | .rnd _ _ => ⟨0xF000#16, 0xC000#16⟩
  | .drw _ _ _ => ⟨0xF000#16, 0xD000#16⟩
  | .skp _ => ⟨0xF0FF#16, 0xE09E#16⟩
  | .sknp _ => ⟨0xF0FF#16, 0xE0A1#16⟩
  | .ldVxDT _ => ⟨0xF0FF#16, 0xF007#16⟩
  | .ldVxK _ => ⟨0xF0FF#16, 0xF00A#16⟩
  | .ldDTVx _ => ⟨0xF0FF#16, 0xF015#16⟩
  | .ldSTVx _ => ⟨0xF0FF#16, 0xF018#16⟩
  | .addI _ => ⟨0xF0FF#16, 0xF01E#16⟩
  | .ldF _ => ⟨0xF0FF#16, 0xF029#16⟩
  | .ldB _ => ⟨0xF0FF#16, 0xF033#16⟩
  | .storeRegs _ => ⟨0xF0FF#16, 0xF055#16⟩
  | .loadRegs _ => ⟨0xF0FF#16, 0xF065#16⟩

/-- The 34 rows of R66 in the table's order. -/
def opcodeTable : List OpcodeRow :=
  [⟨0xFFFF#16, 0x00E0#16⟩, ⟨0xFFFF#16, 0x00EE#16⟩, ⟨0xF000#16, 0x1000#16⟩, ⟨0xF000#16, 0x2000#16⟩,
   ⟨0xF000#16, 0x3000#16⟩, ⟨0xF000#16, 0x4000#16⟩, ⟨0xF00F#16, 0x5000#16⟩, ⟨0xF000#16, 0x6000#16⟩,
   ⟨0xF000#16, 0x7000#16⟩, ⟨0xF00F#16, 0x8000#16⟩, ⟨0xF00F#16, 0x8001#16⟩, ⟨0xF00F#16, 0x8002#16⟩] ++
  [⟨0xF00F#16, 0x8003#16⟩, ⟨0xF00F#16, 0x8004#16⟩, ⟨0xF00F#16, 0x8005#16⟩, ⟨0xF00F#16, 0x8006#16⟩,
   ⟨0xF00F#16, 0x8007#16⟩, ⟨0xF00F#16, 0x800E#16⟩, ⟨0xF00F#16, 0x9000#16⟩, ⟨0xF000#16, 0xA000#16⟩,
   ⟨0xF000#16, 0xB000#16⟩, ⟨0xF000#16, 0xC000#16⟩, ⟨0xF000#16, 0xD000#16⟩] ++
  [⟨0xF0FF#16, 0xE09E#16⟩, ⟨0xF0FF#16, 0xE0A1#16⟩, ⟨0xF0FF#16, 0xF007#16⟩, ⟨0xF0FF#16, 0xF00A#16⟩,
   ⟨0xF0FF#16, 0xF015#16⟩, ⟨0xF0FF#16, 0xF018#16⟩, ⟨0xF0FF#16, 0xF01E#16⟩, ⟨0xF0FF#16, 0xF029#16⟩,
   ⟨0xF0FF#16, 0xF033#16⟩, ⟨0xF0FF#16, 0xF055#16⟩, ⟨0xF0FF#16, 0xF065#16⟩]

end Sys2Proof
end

