-- ==== Sys2Proof/Config.lean ====
section
/-! DEFINITION. What an implementation of the core fixes, and the free values. The opaque constants have no body: no proof
can see what they are, so a statement holds whatever they are. -/

namespace Sys2Proof

/-- When the timers tick (spec/00_scope.md R3 `TIMER_MODE`; spec/60_exceptions.md R216, R217; decision D1). -/
inductive TimerMode where
  /-- One tick ends every completed cycle (R216), the spec's default. -/
  | coupled
  /-- Ticks are events of their own, between cycles (R217). -/
  | external
deriving DecidableEq, Repr

/-- Which pressed key Fx0A reports (spec/00_scope.md R3 `KEY_PICK`; spec/44_timer_input.md R173; decision D7). -/
inductive KeyPick where
  /-- The lowest pressed id, the spec's default. -/
  | lowest
  /-- Any other choice of a pressed id: the free function `Config.keyPick`. -/
  | free
deriving DecidableEq, Repr

namespace Config

/-- The key vector that the core samples when the host has announced none; the argument counts the inputs drawn so far.
DESIGN CHOICE (log 3): an input under no law (spec/10_state.md R26, decision D17). -/
opaque keys : Nat → Word

/-- The random byte of a Cxkk when the host has announced none. DESIGN CHOICE (log 4): R27, decision D17. -/
opaque rnd : Nat → Byte

/-- In external mode: whether the next event is a `tick`. DESIGN CHOICE (log 6): spec/60_exceptions.md R217. -/
opaque tickNext : Nat → Bool

/-- The choice of a pressed key under `KeyPick.free`. DESIGN CHOICE (log 7): decision D7. -/
opaque keyPick : Word → Fin 16

end Config

end Sys2Proof
end

