-- ==== Sys2Proof/Machine/Params.lean ====
section
/-! DEFINITION. The parameters of the core and their values (spec/00_scope.md R3), and the reset values that come from them. -/

namespace Sys2Proof.Machine

/-- `MEM_SIZE`: bytes of memory, addresses 0..4095 (R3, spec/20_memory.md R40). -/
abbrev memSize : Nat := 4096

/-- `PROGRAM_START`: the first ROM byte and the reset value of PC (R3, spec/10_state.md R35; log 12). -/
abbrev programStart : Nat := 0x200

/-- `FONT_BASE`: the first font byte (R3; log 12). -/
abbrev fontBase : Nat := 0x050

/-- `FONT_SIZE`: bytes of the font table (R3). -/
abbrev fontSize : Nat := 80

/-- `GLYPH_BYTES`: bytes of one glyph (R3). -/
abbrev glyphBytes : Nat := 5

/-- `ROM_MAX`: the largest ROM image (R3, spec/70_reset_and_hazards.md R236). -/
abbrev romMax : Nat := memSize - programStart

/-- The default `FONT_TABLE` of spec/70_reset_and_hazards.md R232, glyphs 0 to 7. PRESUMED (log 10). -/
def fontLow : List Byte :=
  [0xF0, 0x90, 0x90, 0x90, 0xF0,  0x20, 0x60, 0x20, 0x20, 0x70,
   0xF0, 0x10, 0xF0, 0x80, 0xF0,  0xF0, 0x10, 0xF0, 0x10, 0xF0,
   0x90, 0x90, 0xF0, 0x10, 0x10,  0xF0, 0x80, 0xF0, 0x10, 0xF0,
   0xF0, 0x80, 0xF0, 0x90, 0xF0,  0xF0, 0x10, 0x20, 0x40, 0x40]

/-- The default `FONT_TABLE`, glyphs 8 to F. PRESUMED (log 10). -/
def fontHigh : List Byte :=
  [0xF0, 0x90, 0xF0, 0x90, 0xF0,  0xF0, 0x90, 0xF0, 0x10, 0xF0,
   0xF0, 0x90, 0xF0, 0x90, 0x90,  0xE0, 0x90, 0xE0, 0x90, 0xE0,
   0xF0, 0x80, 0x80, 0x80, 0xF0,  0xE0, 0x90, 0x90, 0x90, 0xE0,
   0xF0, 0x80, 0xF0, 0x80, 0xF0,  0xF0, 0x80, 0xF0, 0x80, 0x80]

/-- The default `FONT_TABLE` (R232): 16 glyphs of 5 bytes. -/
def fontTable : List Byte := fontLow ++ fontHigh

/-- The timer mode after reset: the spec's default. DESIGN CHOICE (log 5). -/
def resetTimerMode : TimerMode := .coupled

/-- The key choice after reset: the spec's default. DESIGN CHOICE (log 7). -/
def resetKeyPick : KeyPick := .lowest

end Sys2Proof.Machine
end

