-- ==== Sys2Proof/Machine/State.lean ====
section
/-! DEFINITION. The state of the core as plain data (spec/10_state.md R10 to R21), its failure record, the outcomes, and the
state right after reset (R35). -/

namespace Sys2Proof.Machine

/-- Memory: the bytes that differ from the reset content, by rising address (spec/20_memory.md R40; log 11). -/
abbrev Memory := List Host.Cell

/-- The display buffer, 32 rows of 64 pixels, true = on: `DISP[y][x]` is row `y`, column `x` (R18). -/
abbrev Display := Vector (Vector Bool 64) 32

/-- The failure kinds of spec/60_exceptions.md R201. Safe: each is the spec's own, and the core halts with it. -/
inductive FailureKind where
  /-- The decoder: the word matches no row of R66 (R202). -/
  | unknownOpcode
  /-- CALL with SP = 16 (R203). -/
  | stackOverflow
  /-- RET with SP = 0 (R204). -/
  | stackUnderflow
  /-- The fetch, DRW, LD B, LD [I], LD Vx,[I]: an address above 4095 (R205). -/
  | outOfBounds
  /-- SKP, SKNP: a key id above 15 (R206). -/
  | keyIndexOutOfRange
deriving DecidableEq, Repr

/-- The record in the failure latch (R19, R200): `op` is the fetched word (none if the fetch failed), `pc` the address of the
failing instruction, `addr` the offending address or key id. The record's `code` is `FailureKind.code kind` (log 22). -/
structure FailureRecord where
  kind : FailureKind
  op : Option Word
  pc : Word
  addr : Option Nat
deriving DecidableEq, Repr

/-- The parameters with more than one value (spec/00_scope.md R3); no step changes them (log 5, log 7). -/
structure Params where
  timerMode : TimerMode
  keyPick : KeyPick
deriving DecidableEq, Repr

/-- The model's own record of the host's inputs, no state of the core (R26, R27, R33; log 3, log 4, log 6): what the host has
announced for the coming cycles, and how many inputs were drawn so far. Where nothing is announced an input is free. -/
structure Inputs where
  keys : List Word
  rnd : List Byte
  ticks : List Bool
  drawn : Nat
deriving DecidableEq, Repr

/-- The state of the core. -/
structure State where
  /-- `V[0]`..`V[15]` (R10); `V[15]` is the flag register VF (R11). -/
  v : Vector Byte 16
  /-- The index register `I` (R12). -/
  i : Word
  /-- The program counter (R13). -/
  pc : Word
  /-- The stack pointer, 0..16 (R14; log 23). -/
  sp : Fin 17
  /-- The call stack (R15). -/
  stack : Vector Word 16
  /-- The delay timer (R16). -/
  dt : Byte
  /-- The sound timer (R16). -/
  st : Byte
  /-- The memory (R17). -/
  mem : Memory
  /-- The display buffer (R18). -/
  disp : Display
  /-- The failure latch (R19). -/
  fault : Option FailureRecord
  /-- The parameters (spec/00_scope.md R3). -/
  params : Params
  /-- The host's inputs. -/
  inputs : Inputs
deriving DecidableEq, Repr

/-- The faults of a step: none. The core's failures are no stop of the model: the spec describes what `raise` does
(spec/60_exceptions.md R200), so a failing cycle answers a next state with the latch set (log 1). -/
inductive Fault where
deriving DecidableEq, Repr

/-- Why a step gives no meaning. -/
inductive Refusal where
  /-- Raised by an arm of `exec` that has no meaning yet; safe: nothing is claimed of such an instruction. No arm raises it. -/
  | notModelled (mnemonic : String)
deriving DecidableEq, Repr

/-- What a step answers. -/
abbrev Outcome := Host.Outcome State Fault Refusal

/-- The core right after reset with the default font and an empty ROM: every field at the value of R35. The parameters have
the spec's defaults (log 5, log 7), and nothing is announced of the inputs (log 3). -/
def State.reset : State where
  v := Vector.replicate 16 0
  i := 0
  pc := BitVec.ofNat 16 programStart
  sp := 0
  stack := Vector.replicate 16 0
  dt := 0
  st := 0
  mem := []
  disp := Vector.replicate 32 (Vector.replicate 64 false)
  fault := none
  params := { timerMode := resetTimerMode, keyPick := resetKeyPick }
  inputs := { keys := [], rnd := [], ticks := [], drawn := 0 }

end Sys2Proof.Machine
end

