-- ==== Sys2Proof/Machine/Ops.lean ====
section
/-! DEFINITION. The named operations over memory, display, registers, stack, timers and inputs, and `raise`, the one way a
failure is taken (spec/60_exceptions.md R200). -/

namespace Sys2Proof.Machine

/-! ## Memory (spec/20_memory.md) -/

/-- The reset content of an address under the default font and the empty ROM (spec/70_reset_and_hazards.md R231, R232): what
an unlisted address reads as (log 10, log 11). -/
def Memory.base (a : Nat) : Byte :=
  if fontBase ≤ a then fontTable.getD (a - fontBase) 0 else 0

/-- The byte at an address: the last byte written there, or the reset content (R48). -/
def Memory.read : Memory → Nat → Byte
  | [], a => Memory.base a
  | (b, w) :: rest, a => if b = a then w else Memory.read rest a

/-- Drops every entry of an address. -/
def Memory.drop (a : Nat) : Memory → Memory
  | [] => []
  | (b, w) :: rest => if b = a then Memory.drop a rest else (b, w) :: Memory.drop a rest

/-- Puts an entry before the first one with a higher address. -/
def Memory.insert (a : Nat) (w : Byte) : Memory → Memory
  | [] => [(a, w)]
  | (b, u) :: rest => if a < b then (a, w) :: (b, u) :: rest else (b, u) :: Memory.insert a w rest

/-- Writes one byte, in canonical form: a byte equal to the reset content is not listed. There is no byte at an address of
`memSize` or more, so nothing is written there; the instructions check their bounds before (R44, R47). -/
def Memory.write (m : Memory) (a : Nat) (w : Byte) : Memory :=
  if a < memSize then
    if w = Memory.base a then Memory.drop a m else Memory.insert a w (Memory.drop a m)
  else m

/-- `n` bytes from an address upward (R43). -/
def Memory.readBytes (m : Memory) (a : Nat) : Nat → List Byte
  | 0 => []
  | n + 1 => m.read a :: Memory.readBytes m (a + 1) n

/-- Writes bytes from an address upward, in ascending order (R43, R47). -/
def Memory.writeBytes (m : Memory) (a : Nat) : List Byte → Memory
  | [] => m
  | b :: bs => Memory.writeBytes (m.write a b) (a + 1) bs

/-- The canonical form: addresses strictly rising, all below `memSize`, no entry equal to the reset content. -/
abbrev Memory.wf (m : Memory) : Prop :=
  (m.map Prod.fst).Pairwise (· < ·) ∧ ∀ c ∈ m, c.1 < memSize ∧ c.2 ≠ Memory.base c.1

/-! ## Display (spec/42_draw_display.md) -/

/-- `DISP[y][x]`; off the grid there is no pixel, and none is on. -/
def Display.pixel (d : Display) (y x : Nat) : Bool :=
  if h : y < 32 ∧ x < 64 then (d[y]'h.1)[x]'h.2 else false

/-- Exclusive-or of one pixel with 1; off the grid nothing is written (`DRAW_EDGE = clip`, R141, decision D2; log 8). -/
def Display.toggle (d : Display) (y x : Nat) : Display :=
  if h : y < 32 ∧ x < 64 then d.set y ((d[y]'h.1).set x (!(d[y]'h.1)[x]'h.2) h.2) h.1 else d

/-- All pixels off (R140). -/
def Display.clear : Display := Vector.replicate 32 (Vector.replicate 64 false)

/-- The 8 pixels of a sprite row, the leftmost first: bit 7 is the leftmost (R142; log 18). -/
def spriteBits (b : Byte) : List Bool :=
  [b.getLsbD 7, b.getLsbD 6, b.getLsbD 5, b.getLsbD 4, b.getLsbD 3, b.getLsbD 2, b.getLsbD 1, b.getLsbD 0]

/-- Exclusive-or of a row of sprite bits at row `y` from column `x` on, and whether a pixel went from on to off (R141). -/
def Display.xorRow (d : Display) (y x : Nat) : List Bool → Display × Bool
  | [] => (d, false)
  | true :: bits =>
    let r := Display.xorRow (d.toggle y x) y (x + 1) bits
    (r.1, d.pixel y x || r.2)
  | false :: bits => Display.xorRow d y (x + 1) bits

/-- Exclusive-or of the rows of a sprite from row `y` downward at column `x`, and the collision bit (R141, R143). -/
def Display.xorSprite (d : Display) (y x : Nat) : List Byte → Display × Bool
  | [] => (d, false)
  | b :: bs =>
    let r := d.xorRow y x (spriteBits b)
    let q := Display.xorSprite r.1 (y + 1) x bs
    (q.1, r.2 || q.2)

/-! ## Registers (spec/10_state.md R10 to R16) -/

/-- `V[r]`. -/
def State.getV (s : State) (r : Reg) : Byte := s.v.get r

/-- `V[r] <- b`. -/
def State.setV (s : State) (r : Reg) (b : Byte) : State := { s with v := s.v.set r.val b r.isLt }

/-- The number of the flag register VF, `FLAG_REG` (spec/00_scope.md R3, R11). -/
abbrev flagReg : Reg := 15

/-- `V[15] <- b`. -/
def State.setVF (s : State) (b : Byte) : State := s.setV flagReg b

/-- `I <- w`. -/
def State.setI (s : State) (w : Word) : State := { s with i := w }

/-- `PC <- w`. -/
def State.setPc (s : State) (w : Word) : State := { s with pc := w }

/-- The advance of the cycle, before the handler (spec/30_encoding.md R70 step 2): `PC <- PC + 2` (log 24). -/
def State.advance (s : State) : State := s.setPc (s.pc + 2)

/-- `skip` if the condition holds (spec/41_control_flow.md R120): `PC <- PC + 2` on the already advanced PC. -/
def State.skipIf (s : State) (c : Bool) : State := if c then s.setPc (s.pc + 2) else s

/-- `DT <- b`. -/
def State.setDT (s : State) (b : Byte) : State := { s with dt := b }

/-- `ST <- b`. -/
def State.setST (s : State) (b : Byte) : State := { s with st := b }

/-- The new memory. -/
def State.setMem (s : State) (m : Memory) : State := { s with mem := m }

/-- The new display. -/
def State.setDisp (s : State) (d : Display) : State := { s with disp := d }

/-- `V[k] <- b` for the bytes in turn, from register `k` upward; there is no register past 15 (R155). -/
def State.setRegs (s : State) (k : Nat) : List Byte → State
  | [] => s
  | b :: bs => State.setRegs (if h : k < 16 then s.setV ⟨k, h⟩ b else s) (k + 1) bs

/-- `V[0]`..`V[n-1]` as a list (R154). -/
def State.regBytes (s : State) (n : Nat) : List Byte := s.v.toList.take n

/-! ## Call stack (R14, R15; spec/41_control_flow.md R122, R123) -/

/-- `STACK[SP] <- w ; SP <- SP + 1`, or none when `SP = 16`. -/
def State.push (s : State) (w : Word) : Option State :=
  if h : s.sp.val < 16 then
    some { s with stack := s.stack.set s.sp.val w h, sp := ⟨s.sp.val + 1, by omega⟩ }
  else none

/-- `SP <- SP - 1`, with the entry `STACK[SP]` then read, or none when `SP = 0`. The entry keeps its value. -/
def State.pop (s : State) : Option (Word × State) :=
  if h : s.sp.val = 0 then none
  else some (s.stack[s.sp.val - 1]'(by omega), { s with sp := ⟨s.sp.val - 1, by omega⟩ })

/-! ## Timers (spec/60_exceptions.md R215) -/

/-- One step toward zero, never below. -/
def countDown (b : Byte) : Byte := if b = 0 then 0 else b - 1

/-- The timer tick: both timers, independently. -/
def State.tick (s : State) : State := { s with dt := countDown s.dt, st := countDown s.st }

/-! ## Inputs (spec/10_state.md R26, R27, R33) -/

/-- The KEYS sample of this cycle: announced by the host, or free (log 3). -/
def State.nextKeys (s : State) : Word :=
  match s.inputs.keys with
  | k :: _ => k
  | [] => Config.keys s.inputs.drawn

/-- The state after the KEYS sample was taken. -/
def State.tookKeys (s : State) : State :=
  { s with inputs := { s.inputs with keys := s.inputs.keys.tail, drawn := s.inputs.drawn + 1 } }

/-- The RND byte of this cycle: announced by the host, or free (log 4). -/
def State.nextRnd (s : State) : Byte :=
  match s.inputs.rnd with
  | b :: _ => b
  | [] => Config.rnd s.inputs.drawn

/-- The state after the RND byte was taken. -/
def State.tookRnd (s : State) : State :=
  { s with inputs := { s.inputs with rnd := s.inputs.rnd.tail, drawn := s.inputs.drawn + 1 } }

/-- In external mode, whether the next event is a `tick` rather than a `step`: announced, or free (log 6). -/
def State.nextIsTick (s : State) : Bool :=
  match s.inputs.ticks with
  | t :: _ => t
  | [] => Config.tickNext s.inputs.drawn

/-- The state after the event was taken. -/
def State.tookEvent (s : State) : State :=
  { s with inputs := { s.inputs with ticks := s.inputs.ticks.tail, drawn := s.inputs.drawn + 1 } }

/-! ## Outputs (spec/10_state.md R28, R29, R31) -/

/-- The output `display`: the current value of DISP (R28). -/
def State.displayOut (s : State) : Display := s.disp

/-- The output `sound_on`: 1 exactly when ST is not 0 (R29). -/
def State.soundOn (s : State) : Bool := decide (s.st ≠ 0)

/-- The output `fault` (R31): the failure record or none. -/
def State.faultOut (s : State) : Option FailureRecord := s.fault

/-! ## Failures (spec/60_exceptions.md R200, R201) -/

/-- The numeric code of a failure kind (R201, decision D5). -/
def FailureKind.code : FailureKind → Nat
  | .unknownOpcode => 1
  | .stackOverflow => 2
  | .stackUnderflow => 3
  | .outOfBounds => 4
  | .keyIndexOutOfRange => 5

/-- The group that an unknown-opcode record identifies, `op[15:12]` (R31, R202). -/
def FailureRecord.group (f : FailureRecord) : Option (BitVec 4) := f.op.map fun op => op.extractLsb' 12 4

/-- The failure latched in a state `s` that stands before its cycle (R200): every write of the cycle is undone, so all but the
latch is as in `s`, and `pc` is the address of the failing instruction. -/
def State.latch (s : State) (kind : FailureKind) (op : Option Word) (addr : Option Nat) : State :=
  { s with fault := some { kind := kind, op := op, pc := s.pc, addr := addr } }

/-- `raise Kind(info)` in the cycle that began in `s` (R200): the core halts with the record latched (log 1, log 28). No control
transfer and no return exist (R209); reset is the only way out (`State.resetEvent`). -/
def raise (s : State) (kind : FailureKind) (op : Option Word) (addr : Option Nat) : Outcome :=
  .next (s.latch kind op addr)

/-! ## Reset and the load port (spec/10_state.md R32, spec/70_reset_and_hazards.md R230, R231) -/

/-- The memory image at reset of a font and a ROM: everything zeroed, then the two copies (R230, R231; log 13). -/
def Memory.image (font rom : List Byte) : Memory :=
  Memory.writeBytes (Memory.writeBytes [] fontBase font) programStart rom

/-- The `reset` event: every piece of the core's state at the value of R35, with this font and ROM loaded. The parameters of
the core and the host's inputs are no state of the core and stay (log 14). -/
def State.resetEvent (s : State) (font rom : List Byte) : State :=
  { State.reset with mem := Memory.image font rom, params := s.params, inputs := s.inputs }

/-- A launch: the reset state with the default font and a ROM image (R231). -/
def State.launch (rom : List Byte) : State := State.reset.resetEvent fontTable rom

end Sys2Proof.Machine
end

