-- ==== Sys2Proof/Machine/Flags.lean ====
section
/-! DEFINITION. The flag values that instructions write to VF (spec/10_state.md R11). There is no status register. -/

namespace Sys2Proof.Machine

/-- A flag as a register value: 1 or 0. -/
def flagByte (b : Bool) : Byte := if b then 1 else 0

/-- Carry of 8xy4: 1 if the sum is above 255 (spec/40_arith_logic.md R107). -/
def carryFlag (a b : Byte) : Byte := flagByte (decide (a.toNat + b.toNat > 255))

/-- Flag of 8xy5 and 8xy7: 1 if the minuend is strictly greater than the subtrahend (R108, R110). -/
def greaterFlag (minuend subtrahend : Byte) : Byte := flagByte (decide (minuend.toNat > subtrahend.toNat))

/-- Flag of 8xy6: the bit shifted out, bit 0 (R109). -/
def lowBitFlag (a : Byte) : Byte := flagByte (a.getLsbD 0)

/-- Flag of 8xyE: the bit shifted out, bit 7 (R111). -/
def highBitFlag (a : Byte) : Byte := flagByte (a.getLsbD 7)

/-- Flag of Dxyn: the collision bit (spec/42_draw_display.md R141, R143). -/
def collisionFlag (collision : Bool) : Byte := flagByte collision

end Sys2Proof.Machine
end

