-- ==== Sys2Proof/Machine/Operands.lean ====
section
/-! DEFINITION. The operand forms (spec/30_encoding.md R62) and the one addressing mode (spec/43_index_memory.md R156). -/

namespace Sys2Proof.Machine

/-- `nnn` as a 16-bit value, zero-extended (R62). -/
def addrImm (nnn : BitVec 12) : Word := nnn.setWidth 16

/-- The target of Bnnn, `V[0] + nnn`, not reduced modulo 4096 (spec/41_control_flow.md R128; log 17). -/
def offsetTarget (v0 : Byte) (nnn : BitVec 12) : Word := v0.setWidth 16 + addrImm nnn

/-- `I + V[x]` modulo 65536 (R151). -/
def indexSum (i : Word) (v : Byte) : Word := i + v.setWidth 16

/-- The address of the glyph of a register value, `FONT_BASE + 5 * V[x]`, on all 8 bits (R152; log 31). -/
def glyphAddr (v : Byte) : Word := BitVec.ofNat 16 (fontBase + glyphBytes * v.toNat)

/-- The effective address `I + k`, an unbounded natural number (spec/20_memory.md R44; log 17). -/
def State.ea (s : State) (k : Nat) : Nat := s.i.toNat + k

/-- The bounds of the `n` bytes from `I` on, checked before anything is written: the lowest address out of range,
`max(I, 4096)`, or none if all are in range (R47). -/
def State.rangeFault (s : State) (n : Nat) : Option Nat :=
  if n ≠ 0 ∧ s.ea (n - 1) ≥ memSize then some (max s.i.toNat memSize) else none

/-- The three decimal digits of a byte, hundreds first (R153). -/
def decimalDigits (v : Byte) : List Byte :=
  [BitVec.ofNat 8 (v.toNat / 100), BitVec.ofNat 8 (v.toNat / 10 % 10), BitVec.ofNat 8 (v.toNat % 10)]

/-- `KEYS[k]` of a sample (spec/44_timer_input.md R176). -/
def keyDown (keys : Word) (k : Nat) : Bool := keys.getLsbD k

/-- The lowest pressed id of a sample, 0 if none is pressed. -/
def lowestKey (keys : Word) : Fin 16 := ((List.finRange 16).find? fun k : Fin 16 => keyDown keys k.val).getD 0

/-- `KEY_PICK(KEYS)`: some pressed id of a sample that has one (R173). Under `free` any function that chooses a pressed id is
possible: the free function's choice where it is pressed (log 7). -/
def pickKey (p : KeyPick) (keys : Word) : Fin 16 :=
  match p with
  | .lowest => lowestKey keys
  | .free => if keyDown keys (Config.keyPick keys).val then Config.keyPick keys else lowestKey keys

/-- The display anchor column, `Vx mod 64` (spec/42_draw_display.md R141). -/
def anchorX (v : Byte) : Nat := v.toNat % 64

/-- The display anchor row, `Vy mod 32` (R141). -/
def anchorY (v : Byte) : Nat := v.toNat % 32

end Sys2Proof.Machine
end

