-- ==== Sys2Proof/Machine/Arith.lean ====
section
/-! DEFINITION. Arithmetic, logic and random (spec/40_arith_logic.md). Each meaning runs on the state before its cycle, so it
advances the PC first (spec/30_encoding.md R70). In the flag-writing rows VF is written first and the operands of the
second statement are read again after it (R100; log 9). -/

namespace Sys2Proof.Machine

/-- 6xkk (R101). -/
def execLdImm (x : Reg) (kk : Byte) (s : State) : Outcome := .next (s.advance.setV x kk)

/-- 7xkk (R102): no flag. -/
def execAddImm (x : Reg) (kk : Byte) (s : State) : Outcome := .next (s.advance.setV x (s.getV x + kk))

/-- 8xy0 (R103). -/
def execLdReg (x y : Reg) (s : State) : Outcome := .next (s.advance.setV x (s.getV y))

/-- 8xy1 (R104): VF is not touched. -/
def execOrReg (x y : Reg) (s : State) : Outcome := .next (s.advance.setV x (s.getV x ||| s.getV y))

/-- 8xy2 (R105): VF is not touched. -/
def execAndReg (x y : Reg) (s : State) : Outcome := .next (s.advance.setV x (s.getV x &&& s.getV y))

/-- 8xy3 (R106): VF is not touched. -/
def execXorReg (x y : Reg) (s : State) : Outcome := .next (s.advance.setV x (s.getV x ^^^ s.getV y))

/-- 8xy4 (R107): the sum is held, VF written, then the sum stored. -/
def execAddReg (x y : Reg) (s : State) : Outcome :=
  .next ((s.advance.setVF (carryFlag (s.getV x) (s.getV y))).setV x (s.getV x + s.getV y))

/-- 8xy5 (R108): the difference reads the registers after the write of VF. -/
def execSub (x y : Reg) (s : State) : Outcome :=
  let t := s.advance.setVF (greaterFlag (s.getV x) (s.getV y))
  .next (t.setV x (t.getV x - t.getV y))

/-- 8xy6 (R109): the shift reads Vx after the write of VF; `y` is ignored. -/
def execShr (x _y : Reg) (s : State) : Outcome :=
  let t := s.advance.setVF (lowBitFlag (s.getV x))
  .next (t.setV x (t.getV x >>> 1))

/-- 8xy7 (R110): the difference reads the registers after the write of VF. -/
def execSubn (x y : Reg) (s : State) : Outcome :=
  let t := s.advance.setVF (greaterFlag (s.getV y) (s.getV x))
  .next (t.setV x (t.getV y - t.getV x))

/-- 8xyE (R111): the shift reads Vx after the write of VF; `y` is ignored. -/
def execShl (x _y : Reg) (s : State) : Outcome :=
  let t := s.advance.setVF (highBitFlag (s.getV x))
  .next (t.setV x (t.getV x <<< 1))

/-- Cxkk (R112): the cycle's random byte, masked. -/
def execRnd (x : Reg) (kk : Byte) (s : State) : Outcome := .next (s.advance.tookRnd.setV x (s.nextRnd &&& kk))

end Sys2Proof.Machine
end

