-- ==== Sys2Proof/Machine/Control.lean ====
section
/-! DEFINITION. Control flow (spec/41_control_flow.md). Every transfer starts from the already advanced PC (R120); no target is
checked here, the next fetch checks it. -/

namespace Sys2Proof.Machine

/-- 00EE (R123): StackUnderflow with an empty stack. -/
def execRet (s : State) : Outcome :=
  match s.advance.pop with
  | none => raise s .stackUnderflow (some (encode .ret)) none
  | some (w, t) => .next (t.setPc w)

/-- 1nnn (R121). -/
def execJp (nnn : BitVec 12) (s : State) : Outcome := .next (s.advance.setPc (addrImm nnn))

/-- 2nnn (R122): pushes the advanced PC; StackOverflow with a full stack. -/
def execCall (nnn : BitVec 12) (s : State) : Outcome :=
  match s.advance.push s.advance.pc with
  | none => raise s .stackOverflow (some (encode (.call nnn))) none
  | some t => .next (t.setPc (addrImm nnn))

/-- 3xkk (R124). -/
def execSeImm (x : Reg) (kk : Byte) (s : State) : Outcome := .next (s.advance.skipIf (decide (s.getV x = kk)))

/-- 4xkk (R125). -/
def execSneImm (x : Reg) (kk : Byte) (s : State) : Outcome := .next (s.advance.skipIf (decide (s.getV x ≠ kk)))

/-- 5xy0 (R126). -/
def execSeReg (x y : Reg) (s : State) : Outcome := .next (s.advance.skipIf (decide (s.getV x = s.getV y)))

/-- 9xy0 (R127). -/
def execSneReg (x y : Reg) (s : State) : Outcome := .next (s.advance.skipIf (decide (s.getV x ≠ s.getV y)))

/-- Bnnn (R128): always V[0]. -/
def execJpV0 (nnn : BitVec 12) (s : State) : Outcome := .next (s.advance.setPc (offsetTarget (s.getV 0) nnn))

end Sys2Proof.Machine
end

