-- ==== Sys2Proof/Machine/Draw.lean ====
section
/-! DEFINITION. The display instructions and the collision detector (spec/42_draw_display.md). -/

namespace Sys2Proof.Machine

/-- 00E0 (R140): VF is not written. -/
def execCls (s : State) : Outcome := .next (s.advance.setDisp Display.clear)

/-- Dxyn (R141): all bounds checked first, the anchor read before VF is written, VF always written. -/
def execDrw (x y : Reg) (n : BitVec 4) (s : State) : Outcome :=
  match s.rangeFault n.toNat with
  | some a => raise s .outOfBounds (some (encode (.drw x y n))) (some a)
  | none =>
    let r := s.disp.xorSprite (anchorY (s.getV y)) (anchorX (s.getV x)) (s.mem.readBytes (s.ea 0) n.toNat)
    .next ((s.advance.setDisp r.1).setVF (collisionFlag r.2))

end Sys2Proof.Machine
end

