-- ==== Sys2Proof/Machine/Index.lean ====
section
/-! DEFINITION. Index register and memory (spec/43_index_memory.md). No memory instruction changes `I` (R156); all bounds are
checked before anything is written (spec/20_memory.md R47). -/

namespace Sys2Proof.Machine

/-- Annn (R150). -/
def execLdI (nnn : BitVec 12) (s : State) : Outcome := .next (s.advance.setI (addrImm nnn))

/-- Fx1E (R151): no flag, no bound. -/
def execAddI (x : Reg) (s : State) : Outcome := .next (s.advance.setI (indexSum s.i (s.getV x)))

/-- Fx29 (R152). -/
def execLdF (x : Reg) (s : State) : Outcome := .next (s.advance.setI (glyphAddr (s.getV x)))

/-- Fx33 (R153). -/
def execLdB (x : Reg) (s : State) : Outcome :=
  match s.rangeFault 3 with
  | some a => raise s .outOfBounds (some (encode (.ldB x))) (some a)
  | none => .next (s.advance.setMem (s.mem.writeBytes (s.ea 0) (decimalDigits (s.getV x))))

/-- Fx55 (R154): `V[0]`..`V[x]`, x included. -/
def execStoreRegs (x : Reg) (s : State) : Outcome :=
  match s.rangeFault (x.val + 1) with
  | some a => raise s .outOfBounds (some (encode (.storeRegs x))) (some a)
  | none => .next (s.advance.setMem (s.mem.writeBytes (s.ea 0) (s.regBytes (x.val + 1))))

/-- Fx65 (R155): `V[0]`..`V[x]`, x included. -/
def execLoadRegs (x : Reg) (s : State) : Outcome :=
  match s.rangeFault (x.val + 1) with
  | some a => raise s .outOfBounds (some (encode (.loadRegs x))) (some a)
  | none => .next (s.advance.setRegs 0 (s.mem.readBytes (s.ea 0) (x.val + 1)))

end Sys2Proof.Machine
end

