-- ==== Sys2Proof/Machine/TimerKey.lean ====
section
/-! DEFINITION. Timers and keys (spec/44_timer_input.md). The coupled tick is no part of a meaning: it ends the cycle
(spec/60_exceptions.md R216, Machine/Cycle.lean). -/

namespace Sys2Proof.Machine

/-- The two key skips share this: KeyIndexOutOfRange for a key id above 15 (R176; log 20), else a skip when the sampled flag
of the key is `want`. -/
def keySkip (i : Instr) (x : Reg) (want : Bool) (s : State) : Outcome :=
  if (s.getV x).toNat > 15 then raise s .keyIndexOutOfRange (some (encode i)) (some (s.getV x).toNat)
  else .next (s.advance.tookKeys.skipIf (keyDown s.nextKeys (s.getV x).toNat == want))

/-- Ex9E (R170). -/
def execSkp (x : Reg) (s : State) : Outcome := keySkip (.skp x) x true s

/-- ExA1 (R171). -/
def execSknp (x : Reg) (s : State) : Outcome := keySkip (.sknp x) x false s

/-- Fx07 (R172). -/
def execLdVxDT (x : Reg) (s : State) : Outcome := .next (s.advance.setV x s.dt)

/-- Fx0A (R173): with no key pressed `PC <- PC - 2`, so that the same instruction is fetched again. -/
def execLdVxK (x : Reg) (s : State) : Outcome :=
  let t := s.advance.tookKeys
  .next (if s.nextKeys ≠ 0 then t.setV x (BitVec.ofNat 8 (pickKey s.params.keyPick s.nextKeys).val)
    else t.setPc (t.pc - 2))

/-- Fx15 (R174). -/
def execLdDTVx (x : Reg) (s : State) : Outcome := .next (s.advance.setDT (s.getV x))

/-- Fx18 (R175). -/
def execLdSTVx (x : Reg) (s : State) : Outcome := .next (s.advance.setST (s.getV x))

end Sys2Proof.Machine
end

