-- ==== Sys2Proof/Machine/Cycle.lean ====
section
/-! DEFINITION. The cycle (spec/30_encoding.md R70), its fetch and its tick, and the host's events (spec/10_state.md R25, R33). -/

namespace Sys2Proof.Machine

/-- The lowest address out of range that a fetch at `pc` touches, or none (spec/20_memory.md R45). -/
def fetchFault (pc : Word) : Option Nat :=
  if pc.toNat ≥ memSize then some pc.toNat
  else if pc.toNat + 1 ≥ memSize then some (pc.toNat + 1)
  else none

/-- Step 1 of the cycle: the word at PC, its high byte first (R42), or the address out of range (R45). PC may be odd (R46). -/
def State.fetch (s : State) : Except Nat Word :=
  match fetchFault s.pc with
  | some a => .error a
  | none => .ok (wordOfBytes (s.mem.read s.pc.toNat) (s.mem.read (s.pc.toNat + 1)))

/-- Step 5 of the cycle: in coupled mode one tick, unless the cycle failed (spec/60_exceptions.md R200, R216). -/
def State.endCycle (t : State) : State :=
  if t.fault.isNone ∧ t.params.timerMode = .coupled then t.tick else t

/-- Steps 3 to 5 for a fetched word: decode, execute, tick (R70). -/
def runWord (op : Word) (s : State) : Outcome :=
  match decode op with
  | none => raise s .unknownOpcode (some op) none
  | some i =>
    match exec i s with
    | .next t => .next t.endCycle
    | .fault f => .fault f
    | .refused r => .refused r

/-- One cycle (R70). The first `raise` reached wins (spec/60_exceptions.md R208). -/
def cycle (s : State) : Outcome :=
  match s.fetch with
  | .error a => raise s .outOfBounds none (some a)
  | .ok op => runWord op s

/-- The `step` event (spec/10_state.md R25): one cycle, or nothing once a failure is latched (R19; log 2). -/
def stepEvent (s : State) : Outcome := if s.fault.isSome then .next s else cycle s

/-- The `tick` event (R33): one tick in external mode with no failure latched; in coupled mode the signal does not exist. -/
def tickEvent (s : State) : State :=
  if s.fault.isNone ∧ s.params.timerMode = .external then s.tick else s

/-- The next event of the host. In coupled mode every event is a `step`; in external mode it is a `tick` or a `step`, as
announced or free (spec/60_exceptions.md R217; log 6). Nothing moves once a failure is latched (decision D19; log 2). -/
def nextEvent (s : State) : Outcome :=
  match s.params.timerMode with
  | .coupled => stepEvent s
  | .external =>
    if s.fault.isSome then .next s
    else if s.nextIsTick then .next (tickEvent s.tookEvent)
    else stepEvent s.tookEvent

/-- The state in which the host's next event is a `step` that runs a cycle: no failure latched, and in external mode `step`
announced. -/
def State.readied (s : State) : State :=
  match s.params.timerMode with
  | .coupled => { s with fault := none }
  | .external => { s with fault := none, inputs := { s.inputs with ticks := false :: s.inputs.ticks } }

end Sys2Proof.Machine
end

