-- ==== Sys2Proof/Machine/Step.lean ====
section
/-! DEFINITION. One step of the machine, and the placing of an instruction where the next step fetches it. -/

namespace Sys2Proof.Machine

/-- One step: the host's next event. After reset (coupled mode) that is one cycle (spec/10_state.md R25). -/
def step (s : State) : Host.Outcome State Fault Refusal := nextEvent s

/-- `s` with the instruction of bits `w` (numbered as spec/opcode_table.json numbers them) stored at PC, and readied so that the
next step fetches and runs it (log 13). -/
def State.withFetchWord (s : State) (nbits w : Nat) : State :=
  s.readied.setMem (s.mem.writeBytes s.pc.toNat (tableBytes nbits w))

end Sys2Proof.Machine
end

