-- ==== Sys2Proof/WellFormed.lean ====
section
/-! DEFINITION. What must hold of the terms the machine is given. -/

namespace Sys2Proof

/-- Every instruction term is well formed: each field's type has exactly the values its bits in the word can spell
(spec/10_state.md R10, spec/30_encoding.md R61, R62), so there is nothing left to check. -/
def Instr.wellFormed : Instr → Bool
  | _ => true

/-- The premise of a launch on the ROM image: at most `ROM_MAX` bytes (spec/70_reset_and_hazards.md R236 (a),
spec/60_exceptions.md R207: a duty of the loader, no failure of the core). -/
def romFits (rom : List Byte) : Bool := decide (rom.length ≤ Machine.romMax)

/-- The premise of a launch on the font: exactly 80 bytes (spec/70_reset_and_hazards.md R231, R232). -/
def fontFits (font : List Byte) : Bool := decide (font.length = Machine.fontSize)

end Sys2Proof
end

