-- ==== Sys2Proof/Safety.lean ====
section
/-! DEFINITION. The terms that statements use: what a transition keeps, the failure latch, and the invariant of the core. -/

namespace Sys2Proof.Machine

/-- The pieces of state that a statement can name. `regs` is all general registers; the registers a transition may write are
listed apart (`KeepsRegs`). -/
inductive Part where
  | regs | index | pc | sp | stack | dt | st | mem | disp | fault | params | inputs
deriving DecidableEq, Repr

/-- A piece of state reads the same before and after: memory byte by byte, the display pixel by pixel. -/
def Part.Keeps (s t : State) : Part → Prop
  | .regs => ∀ r : Reg, t.getV r = s.getV r
  | .index => t.i = s.i
  | .pc => t.pc = s.pc
  | .sp => t.sp = s.sp
  | .stack => ∀ k : Fin 16, t.stack.get k = s.stack.get k
  | .dt => t.dt = s.dt
  | .st => t.st = s.st
  | .mem => ∀ a : Nat, t.mem.read a = s.mem.read a
  | .disp => ∀ y x : Nat, t.disp.pixel y x = s.disp.pixel y x
  | .fault => t.fault = s.fault
  | .params => t.params = s.params
  | .inputs => t.inputs = s.inputs

/-- Every piece of state outside `ps` reads the same before and after. -/
def KeepsAllBut (ps : List Part) (s t : State) : Prop := ∀ p : Part, p ∉ ps → p.Keeps s t

/-- Every general register outside `rs` is the same before and after. -/
def KeepsRegs (rs : List Reg) (s t : State) : Prop := ∀ r : Reg, r ∉ rs → t.getV r = s.getV r

/-- Every byte of memory outside the `n` bytes from `a` on is the same before and after. -/
def KeepsMemOutside (a n : Nat) (s t : State) : Prop := ∀ b : Nat, ¬(a ≤ b ∧ b < a + n) → t.mem.read b = s.mem.read b

/-- `exec i s` answers a next state with this property. -/
def Completes (i : Instr) (s : State) (post : State → Prop) : Prop := ∃ t : State, exec i s = .next t ∧ post t

/-- `exec i s` raises this failure (spec/60_exceptions.md R200): all but the latch is as before the cycle, and the record holds
the instruction's word, its address and `addr`. -/
def Raises (i : Instr) (s : State) (kind : FailureKind) (addr : Option Nat) : Prop :=
  exec i s = .next { s with fault := some { kind := kind, op := some (encode i), pc := s.pc, addr := addr } }

/-- What an instruction may write besides the failure latch (spec/10_state.md R22, with the PC that every cycle advances and
the model's own record of inputs). -/
def writesOf : Instr → List Part
  | .cls => [.disp, .pc]
  | .ret => [.sp, .pc]
  | .call _ => [.stack, .sp, .pc]
  | .jp _ | .jpV0 _ | .seImm _ _ | .sneImm _ _ | .seReg _ _ | .sneReg _ _ => [.pc]
  | .ldImm _ _ | .addImm _ _ | .ldReg _ _ | .orReg _ _ | .andReg _ _ | .xorReg _ _ => [.regs, .pc]
  | .addReg _ _ | .sub _ _ | .shr _ _ | .subn _ _ | .shl _ _ | .ldVxDT _ | .loadRegs _ => [.regs, .pc]
  | .rnd _ _ | .ldVxK _ => [.regs, .pc, .inputs]
  | .drw _ _ _ => [.regs, .disp, .pc]
  | .skp _ | .sknp _ => [.pc, .inputs]
  | .ldDTVx _ => [.dt, .pc]
  | .ldSTVx _ => [.st, .pc]
  | .ldI _ | .addI _ | .ldF _ => [.index, .pc]
  | .ldB _ | .storeRegs _ => [.mem, .pc]

/-- Which general registers an instruction may write (spec/10_state.md R22, R11). -/
def regsOf : Instr → List Reg
  | .ldImm x _ | .addImm x _ | .ldReg x _ | .orReg x _ | .andReg x _ | .xorReg x _ => [x]
  | .rnd x _ | .ldVxDT x | .ldVxK x => [x]
  | .addReg x _ | .sub x _ | .shr x _ | .subn x _ | .shl x _ => [flagReg, x]
  | .drw _ _ _ => [flagReg]
  | .loadRegs x => (List.finRange 16).filter fun r => decide (r ≤ x)
  | .cls | .ret | .jp _ | .call _ | .seImm _ _ | .sneImm _ _ | .seReg _ _ | .sneReg _ _ => []
  | .ldI _ | .jpV0 _ | .skp _ | .sknp _ | .ldDTVx _ | .ldSTVx _ | .addI _ | .ldF _ | .ldB _ | .storeRegs _ => []

/-- Where the instruction transfers control to an address of its own operands, that address is even (spec/90_conflicts.md C2). -/
def TargetEven (s : State) : Instr → Prop
  | .jp nnn => nnn.toNat % 2 = 0
  | .call nnn => nnn.toNat % 2 = 0
  | .jpV0 nnn => ((s.getV 0).toNat + nnn.toNat) % 2 = 0
  | _ => True

/-- The core is halted: a failure is latched (spec/10_state.md R19). -/
abbrev State.Halted (s : State) : Prop := s.fault.isSome = true

/-- The core stands at a jump to its own address, the suggested end of a run; a convention and no behaviour of the hardware
(spec/00_scope.md R9, decision D20; log 26). -/
def State.AtSelfJump (s : State) : Prop :=
  ∃ nnn : BitVec 12, s.fetch = .ok (encode (.jp nnn)) ∧ s.pc = nnn.setWidth 16

/-- The record's `op` and `addr` are those of its kind (spec/60_exceptions.md R201, R205, R206). -/
def FailureRecord.consistent (f : FailureRecord) : Bool :=
  match f.kind, f.op, f.addr with
  | .unknownOpcode, some op, none => (decode op).isNone
  | .stackOverflow, some op, none => decide (op &&& 0xF000 = 0x2000)
  | .stackUnderflow, some op, none => decide (op = 0x00EE)
  | .outOfBounds, _, some a => decide (4096 ≤ a ∧ a < 65536)
  | .keyIndexOutOfRange, some op, some k => decide (op &&& 0xF000 = 0xE000 ∧ 15 < k ∧ k < 256)
  | _, _, _ => false

/-- The invariant of the core: memory in canonical form; PC at most 4350 (spec/10_state.md R13, R20); every call-stack entry at
most 4096 (R15); a latched record made in this state's cycle and consistent (R19, R200). -/
structure State.Inv (s : State) : Prop where
  memWf : s.mem.wf
  pcBound : s.pc.toNat ≤ 4350
  stackBound : ∀ k : Fin 16, (s.stack.get k).toNat ≤ 4096
  faultOk : ∀ f : FailureRecord, s.fault = some f → f.pc = s.pc ∧ f.consistent = true

/-- Control stays on even addresses (decision D9, conflict C2): PC and every return address are even. -/
structure State.Even (s : State) : Prop where
  pcEven : s.pc.toNat % 2 = 0
  stackEven : ∀ k : Fin 16, (s.stack.get k).toNat % 2 = 0

end Sys2Proof.Machine
end

