-- ==== Sys2Proof/Certificates/Slice0/Obligations.lean ====
section
/-! DEFINITION. The statements about the core, one per `def Obligations.<Name> : Prop`. Where a rule names a value, the value is
computed here in numbers, apart from the operations the meanings use. -/

open Sys2Proof Sys2Proof.Machine

/-! ## Encoding -/

/-- Decoding the word of any instruction gives it back, with every operand at every value (spec/30_encoding.md R61 to R67). -/
def Obligations.DecodeOfEncode : Prop := ∀ i : Instr, decode (encode i) = some i

/-- Every word that decodes is the word of the instruction it decodes to: no bit of it is dropped (R61 to R67). -/
def Obligations.EncodeOfDecode : Prop := ∀ (op : Word) (i : Instr), decode op = some i → encode i = op

/-- R66: a word is an instruction of a row exactly when it matches the row's mask and match; no two rows overlap; a word that
matches no row is unknown; there are 34 rows. -/
def Obligations.DecodeFollowsOpcodeMap : Prop :=
  (∀ (op : Word) (r : OpcodeRow), r ∈ opcodeTable →
    (op &&& r.mask = r.bits ↔ ∃ i : Instr, decode op = some i ∧ opcodeRow i = r)) ∧
  (∀ op : Word, decode op = none ↔ ∀ r ∈ opcodeTable, op &&& r.mask ≠ r.bits) ∧
  opcodeTable.Pairwise (fun r q => ∀ op : Word, ¬(op &&& r.mask = r.bits ∧ op &&& q.mask = q.bits)) ∧
  opcodeTable.length = 34

/-- R64: of the words of group 0 only 0x00E0 and 0x00EE are instructions. R65: in groups 5 and 9 the low nibble must be 0. Both are
the spec's decision D8 (log 21). -/
def Obligations.StrictGroups : Prop :=
  (∀ op : Word, op.toNat < 0x1000 →
    (decode op = some .cls ↔ op = 0x00E0#16) ∧ (decode op = some .ret ↔ op = 0x00EE#16) ∧
    (decode op = none ↔ op ≠ 0x00E0#16 ∧ op ≠ 0x00EE#16)) ∧
  (∀ (x y : Reg) (n : BitVec 4), n ≠ 0 →
    decode (fmtXYN 0x5#4 x y n) = none ∧ decode (fmtXYN 0x9#4 x y n) = none)

/-- The illegal space of R68: the unknown words, group by group, as numbers. Groups 0, 5 and 9 rest on decision D8
(log 21). -/
def Obligations.UnknownWords : Prop :=
  ∀ op : Word, decode op = none ↔
    (op.toNat / 4096 = 0x0 ∧ op.toNat ≠ 0x00E0 ∧ op.toNat ≠ 0x00EE) ∨
    ((op.toNat / 4096 = 0x5 ∨ op.toNat / 4096 = 0x9) ∧ op.toNat % 16 ≠ 0) ∨
    (op.toNat / 4096 = 0x8 ∧ 8 ≤ op.toNat % 16 ∧ op.toNat % 16 ≠ 0xE) ∨
    (op.toNat / 4096 = 0xE ∧ op.toNat % 256 ≠ 0x9E ∧ op.toNat % 256 ≠ 0xA1) ∨
    (op.toNat / 4096 = 0xF ∧ op.toNat % 256 ∉ [0x07, 0x0A, 0x15, 0x18, 0x1E, 0x29, 0x33, 0x55, 0x65])

/-- A word of each family, written from its row of R66, decodes to the instruction it stands for. -/
def Obligations.SampleWordsDecode : Prop :=
  decode 0x00E0#16 = some .cls ∧ decode 0x2ABC#16 = some (.call 0xABC#12) ∧ decode 0x63AB#16 = some (.ldImm 3 0xAB#8) ∧
  decode 0x8AB4#16 = some (.addReg 10 11) ∧ decode 0xD7A3#16 = some (.drw 7 10 0x3#4) ∧
  decode 0xE59E#16 = some (.skp 5) ∧ decode 0xF50A#16 = some (.ldVxK 5) ∧ decode 0xF265#16 = some (.loadRegs 2) ∧
  decode 0x5121#16 = none ∧ decode 0x0000#16 = none

/-! ## The cycle -/

/-- When the bytes at PC decode to an instruction, the step of a running core is `exec` of it at that state (the advance of PC
is in `exec`), with the end of the cycle after it: in coupled mode one tick, unless the instruction failed (R70). That a failed
cycle answers a next state is the model's choice (log 1). -/
def Obligations.StepRunsDecoded : Prop :=
  ∀ (s : State) (i : Instr), s.fault = none → s.params.timerMode = .coupled → s.pc.toNat ≤ 4094 →
    decode (s.mem.read s.pc.toNat ++ s.mem.read (s.pc.toNat + 1)) = some i →
    step s = match exec i s with
      | .next t => .next (if t.fault = none ∧ t.params.timerMode = .coupled then t.tick else t)
      | .fault f => .fault f
      | .refused r => .refused r

/-- R42, R45: a fetch succeeds exactly when PC is at most 4094; its word has the byte at PC above the byte at PC + 1; at 4095
the address 4096 is out of bounds, above 4095 PC itself is. Whether PC is odd does not matter
(R46). Decisions D9 and D10. -/
def Obligations.FetchBounds : Prop :=
  ∀ s : State,
    (s.pc.toNat ≤ 4094 → ∃ op : Word, s.fetch = .ok op ∧
      op.toNat = (s.mem.read s.pc.toNat).toNat * 256 + (s.mem.read (s.pc.toNat + 1)).toNat) ∧
    (s.pc.toNat = 4095 → s.fetch = .error 4096) ∧
    (4095 < s.pc.toNat → s.fetch = .error s.pc.toNat)

/-- R205, R200: a running core whose fetch is out of bounds latches OutOfBounds with no word, PC and the lowest address out of
range, and nothing else changes: no tick either. In external mode the same holds of a `step` event, which is counted as taken
(log 6). Decisions D4, D5, D10; that this is a next state is the model's choice (log 1). -/
def Obligations.FetchFailureHalts : Prop :=
  ∀ s : State, s.fault = none → 4094 < s.pc.toNat →
    let f : FailureRecord := { kind := .outOfBounds, op := none, pc := s.pc, addr := some (max s.pc.toNat 4096) }
    (s.params.timerMode = .coupled → step s = .next { s with fault := some f }) ∧
    (s.params.timerMode = .external → s.nextIsTick = false → step s = .next { s.tookEvent with fault := some f })

/-- R202, R200: a running core that fetches an unknown word latches UnknownOpcode with that word and PC, and nothing else
changes; the record identifies the group. In external mode the same holds of a `step` event, which is counted as taken (log 6).
Decisions D4, D5 (log 1, log 22). -/
def Obligations.UnknownOpcodeHalts : Prop :=
  ∀ (s : State) (op : Word), s.fault = none → s.pc.toNat ≤ 4094 →
    op = s.mem.read s.pc.toNat ++ s.mem.read (s.pc.toNat + 1) → decode op = none →
    ∃ f : FailureRecord,
      (s.params.timerMode = .coupled → step s = .next { s with fault := some f }) ∧
      (s.params.timerMode = .external → s.nextIsTick = false → step s = .next { s.tookEvent with fault := some f }) ∧
      f.kind = .unknownOpcode ∧ f.op = some op ∧ f.pc = s.pc ∧ f.addr = none ∧
      f.group.map BitVec.toNat = some (op.toNat / 4096) ∧ f.kind.code = 1

/-- R200: a step of a running core that ends with a failure latched changed nothing but the latch (in external mode the model
also counts the event as taken); the record holds the address of the failing instruction. Decision D4
(log 1, log 6). -/
def Obligations.FailedCycleChangesOnlyTheLatch : Prop :=
  ∀ (s t : State) (f : FailureRecord), s.fault = none → step s = .next t → t.fault = some f →
    f.pc = s.pc ∧
    t = { s with fault := some f, inputs := if s.params.timerMode = .coupled then s.inputs else s.tookEvent.inputs }

/-- R19, R25, R209, decision D19: once a failure is latched no number of steps changes anything, and neither does a tick. -/
def Obligations.HaltIsPermanent : Prop :=
  ∀ (s : State) (k : Nat), s.fault ≠ none → Host.Core.run Sys2Proof.core k s = .next s ∧ tickEvent s = s

/-- R201, R208: which instruction raises which failure, when, and with what recorded; every other raises none.
Decisions D4, D5, D6, D10; the record's `op` is the instruction's word (log 22). -/
def Obligations.WhichInstructionRaisesWhat : Prop :=
  ∀ (i : Instr) (s t : State) (f : FailureRecord), s.fault = none → exec i s = .next t → t.fault = some f →
    f.op = some (encode i) ∧ f.pc = s.pc ∧
    ((∃ nnn, i = .call nnn ∧ s.sp.val = 16 ∧ f.kind = .stackOverflow ∧ f.addr = none) ∨
     (i = .ret ∧ s.sp.val = 0 ∧ f.kind = .stackUnderflow ∧ f.addr = none) ∨
     (∃ x y n, i = .drw x y n ∧ n ≠ 0 ∧ 4095 < s.i.toNat + n.toNat - 1 ∧
       f.kind = .outOfBounds ∧ f.addr = some (max s.i.toNat 4096)) ∨
     (∃ x, i = .ldB x ∧ 4095 < s.i.toNat + 2 ∧ f.kind = .outOfBounds ∧ f.addr = some (max s.i.toNat 4096)) ∨
     (∃ x, (i = .storeRegs x ∨ i = .loadRegs x) ∧ 4095 < s.i.toNat + x.val ∧
       f.kind = .outOfBounds ∧ f.addr = some (max s.i.toNat 4096)) ∨
     (∃ x, (i = .skp x ∨ i = .sknp x) ∧ 15 < (s.getV x).toNat ∧
       f.kind = .keyIndexOutOfRange ∧ f.addr = some (s.getV x).toNat))

/-- No instruction and no step stops the model: each answers a next state, a failure being one with the latch set (log 1). -/
def Obligations.EverythingAnswersNext : Prop :=
  (∀ (i : Instr) (s : State), ∃ t : State, exec i s = .next t) ∧ ∀ s : State, ∃ t : State, step s = .next t

/-! ## Arithmetic and logic -/

/-- R101: 6xkk sets `V[x]` to `kk` and leaves every other register and all else unchanged. -/
def Obligations.LoadConstant : Prop :=
  ∀ (x : Reg) (kk : Byte) (s : State),
    decode (fmtXKK 0x6#4 x kk) = some (.ldImm x kk) ∧
    Completes (.ldImm x kk) s fun t =>
      t.getV x = kk ∧ t.pc = s.pc + 2 ∧ KeepsRegs [x] s t ∧ KeepsAllBut [.regs, .pc] s t

/-- R102: 7xkk adds modulo 256 and touches no flag. -/
def Obligations.AddConstant : Prop :=
  ∀ (x : Reg) (kk : Byte) (s : State),
    decode (fmtXKK 0x7#4 x kk) = some (.addImm x kk) ∧
    Completes (.addImm x kk) s fun t =>
      (t.getV x).toNat = ((s.getV x).toNat + kk.toNat) % 256 ∧ t.pc = s.pc + 2 ∧
      KeepsRegs [x] s t ∧ KeepsAllBut [.regs, .pc] s t

/-- R103: 8xy0 copies `V[y]` to `V[x]`. -/
def Obligations.CopyRegister : Prop :=
  ∀ (x y : Reg) (s : State),
    decode (fmtXYN 0x8#4 x y 0x0#4) = some (.ldReg x y) ∧
    Completes (.ldReg x y) s fun t =>
      t.getV x = s.getV y ∧ t.pc = s.pc + 2 ∧ KeepsRegs [x] s t ∧ KeepsAllBut [.regs, .pc] s t

/-- R104, R105, R106: 8xy1, 8xy2, 8xy3 write the bitwise or, and, exclusive or to `V[x]`; VF is no flag of them. -/
def Obligations.BitwiseLogic : Prop :=
  ∀ (x y : Reg) (s : State),
    (decode (fmtXYN 0x8#4 x y 0x1#4) = some (.orReg x y) ∧
     Completes (.orReg x y) s fun t =>
       (∀ k : Nat, (t.getV x).getLsbD k = ((s.getV x).getLsbD k || (s.getV y).getLsbD k)) ∧ t.pc = s.pc + 2 ∧
       KeepsRegs [x] s t ∧ KeepsAllBut [.regs, .pc] s t) ∧
    (decode (fmtXYN 0x8#4 x y 0x2#4) = some (.andReg x y) ∧
     Completes (.andReg x y) s fun t =>
       (∀ k : Nat, (t.getV x).getLsbD k = ((s.getV x).getLsbD k && (s.getV y).getLsbD k)) ∧ t.pc = s.pc + 2 ∧
       KeepsRegs [x] s t ∧ KeepsAllBut [.regs, .pc] s t) ∧
    (decode (fmtXYN 0x8#4 x y 0x3#4) = some (.xorReg x y) ∧
     Completes (.xorReg x y) s fun t =>
       (∀ k : Nat, (t.getV x).getLsbD k = ((s.getV x).getLsbD k ^^ (s.getV y).getLsbD k)) ∧ t.pc = s.pc + 2 ∧
       KeepsRegs [x] s t ∧ KeepsAllBut [.regs, .pc] s t)

/-- R107: 8xy4 stores the sum modulo 256 and the carry in VF; with `x = 15` the sum lands last. -/
def Obligations.AddWithCarry : Prop :=
  ∀ (x y : Reg) (s : State),
    decode (fmtXYN 0x8#4 x y 0x4#4) = some (.addReg x y) ∧
    Completes (.addReg x y) s fun t =>
      (t.getV x).toNat = ((s.getV x).toNat + (s.getV y).toNat) % 256 ∧
      (x ≠ 15 → t.getV 15 = if (s.getV x).toNat + (s.getV y).toNat > 255 then 1 else 0) ∧
      t.pc = s.pc + 2 ∧ KeepsRegs [x, 15] s t ∧ KeepsAllBut [.regs, .pc] s t

/-- R108, R110: 8xy5 and 8xy7 write VF first, 1 exactly when the minuend is strictly greater, and then the difference modulo 256
of the registers as that write left them. The order is decision D3 (log 9). -/
def Obligations.SubtractWithFlag : Prop :=
  ∀ (x y : Reg) (s : State),
    (decode (fmtXYN 0x8#4 x y 0x5#4) = some (.sub x y) ∧
     let f : Byte := if (s.getV x).toNat > (s.getV y).toNat then 1 else 0
     let w : Reg → Nat := fun r => if r = 15 then f.toNat else (s.getV r).toNat
     Completes (.sub x y) s fun t =>
       (t.getV x).toNat = (w x + 256 - w y) % 256 ∧ (x ≠ 15 → t.getV 15 = f) ∧
       t.pc = s.pc + 2 ∧ KeepsRegs [x, 15] s t ∧ KeepsAllBut [.regs, .pc] s t) ∧
    (decode (fmtXYN 0x8#4 x y 0x7#4) = some (.subn x y) ∧
     let f : Byte := if (s.getV y).toNat > (s.getV x).toNat then 1 else 0
     let w : Reg → Nat := fun r => if r = 15 then f.toNat else (s.getV r).toNat
     Completes (.subn x y) s fun t =>
       (t.getV x).toNat = (w y + 256 - w x) % 256 ∧ (x ≠ 15 → t.getV 15 = f) ∧
       t.pc = s.pc + 2 ∧ KeepsRegs [x, 15] s t ∧ KeepsAllBut [.regs, .pc] s t)

/-- R109, R111: 8xy6 and 8xyE write to VF the bit shifted out of `V[x]`, then shift by one the `V[x]` that this write left; `y`
has no effect. The order is decision D3 (log 9). -/
def Obligations.ShiftByOne : Prop :=
  ∀ (x y : Reg) (s : State),
    (decode (fmtXYN 0x8#4 x y 0x6#4) = some (.shr x y) ∧
     let f : Nat := (s.getV x).toNat % 2
     Completes (.shr x y) s fun t =>
       (t.getV x).toNat = (if x = 15 then f else (s.getV x).toNat) / 2 ∧ (x ≠ 15 → (t.getV 15).toNat = f) ∧
       t.pc = s.pc + 2 ∧ KeepsRegs [x, 15] s t ∧ KeepsAllBut [.regs, .pc] s t) ∧
    (decode (fmtXYN 0x8#4 x y 0xE#4) = some (.shl x y) ∧
     let f : Nat := (s.getV x).toNat / 128
     Completes (.shl x y) s fun t =>
       (t.getV x).toNat = 2 * (if x = 15 then f else (s.getV x).toNat) % 256 ∧ (x ≠ 15 → (t.getV 15).toNat = f) ∧
       t.pc = s.pc + 2 ∧ KeepsRegs [x, 15] s t ∧ KeepsAllBut [.regs, .pc] s t)

/-- The table of R100: the outcomes when VF is an operand or the destination of a flag-writing instruction. The rule states them
as decision D3 (log 9). -/
def Obligations.FlagRegisterAliasing : Prop :=
  ∀ (x y : Reg) (s : State),
    let vx := (s.getV x).toNat
    let vy := (s.getV y).toNat
    let vf := (s.getV 15).toNat
    let gt : Nat → Nat → Nat := fun a b => if a > b then 1 else 0
    Completes (.addReg x y) s (fun t =>
      (x ≠ 15 → y ≠ 15 → (t.getV x).toNat = (vx + vy) % 256 ∧ (t.getV 15).toNat = gt (vx + vy) 255) ∧
      (x = 15 → y ≠ 15 → (t.getV 15).toNat = (vf + vy) % 256) ∧
      (x ≠ 15 → y = 15 → (t.getV x).toNat = (vx + vf) % 256 ∧ (t.getV 15).toNat = gt (vx + vf) 255) ∧
      (x = 15 → y = 15 → (t.getV 15).toNat = 2 * vf % 256)) ∧
    Completes (.sub x y) s (fun t =>
      (x ≠ 15 → y ≠ 15 → (t.getV x).toNat = (vx + 256 - vy) % 256 ∧ (t.getV 15).toNat = gt vx vy) ∧
      (x = 15 → y ≠ 15 → (t.getV 15).toNat = (gt vf vy + 256 - vy) % 256) ∧
      (x ≠ 15 → y = 15 → (t.getV x).toNat = (vx + 256 - gt vx vf) % 256 ∧ (t.getV 15).toNat = gt vx vf) ∧
      (x = 15 → y = 15 → (t.getV 15).toNat = 0)) ∧
    Completes (.shr x y) s (fun t =>
      (x ≠ 15 → (t.getV x).toNat = vx / 2 ∧ (t.getV 15).toNat = vx % 2) ∧ (x = 15 → (t.getV 15).toNat = 0)) ∧
    Completes (.subn x y) s (fun t =>
      (x ≠ 15 → y ≠ 15 → (t.getV x).toNat = (vy + 256 - vx) % 256 ∧ (t.getV 15).toNat = gt vy vx) ∧
      (x = 15 → y ≠ 15 → (t.getV 15).toNat = (vy + 256 - gt vy vf) % 256) ∧
      (x ≠ 15 → y = 15 → (t.getV x).toNat = (gt vf vx + 256 - vx) % 256 ∧ (t.getV 15).toNat = gt vf vx) ∧
      (x = 15 → y = 15 → (t.getV 15).toNat = 0)) ∧
    Completes (.shl x y) s (fun t =>
      (x ≠ 15 → (t.getV x).toNat = 2 * vx % 256 ∧ (t.getV 15).toNat = vx / 128) ∧
      (x = 15 → (t.getV 15).toNat = 2 * (vf / 128)))

/-- R112: Cxkk writes the cycle's random byte masked by `kk`, whatever that byte is: the bits that are 0 in `kk` are 0, `kk = 0`
gives 0, `kk = 0xFF` gives the byte itself; the byte is fresh, the draw is counted. The form of the input is the model's choice
(log 4). -/
def Obligations.MaskedRandom : Prop :=
  ∀ (x : Reg) (kk : Byte) (s : State),
    decode (fmtXKK 0xC#4 x kk) = some (.rnd x kk) ∧
    Completes (.rnd x kk) s fun t =>
      t.getV x = s.nextRnd &&& kk ∧ t.getV x &&& ~~~kk = 0 ∧ (kk = 0 → t.getV x = 0) ∧
      (kk = 0xFF → t.getV x = s.nextRnd) ∧ t.inputs.drawn = s.inputs.drawn + 1 ∧ t.pc = s.pc + 2 ∧
      KeepsRegs [x] s t ∧ KeepsAllBut [.regs, .pc, .inputs] s t

/-! ## Control flow -/

/-- R121: 1nnn sets PC to `nnn`, odd or even; the next fetch reads the two bytes there, and fails at 0xFFF. The clauses on that
fetch rest on decisions D9 and D10 (log 16, log 17). -/
def Obligations.Jump : Prop :=
  ∀ (nnn : BitVec 12) (s : State),
    decode (fmtNNN 0x1#4 nnn) = some (.jp nnn) ∧
    Completes (.jp nnn) s fun t =>
      t.pc.toNat = nnn.toNat ∧
      (nnn.toNat < 4095 → t.fetch = .ok (s.mem.read nnn.toNat ++ s.mem.read (nnn.toNat + 1))) ∧
      (nnn.toNat = 4095 → t.fetch = .error 4096) ∧ KeepsAllBut [.pc] s t

/-- R122: 2nnn pushes the address after the call and sets PC to `nnn`; with a full stack it raises StackOverflow and nothing is
written (decisions D4, D5; log 1). -/
def Obligations.CallPushes : Prop :=
  ∀ (nnn : BitVec 12) (s : State),
    decode (fmtNNN 0x2#4 nnn) = some (.call nnn) ∧
    (∀ h : s.sp.val < 16, Completes (.call nnn) s fun t =>
      t.stack.get ⟨s.sp.val, h⟩ = s.pc + 2 ∧ (∀ k : Fin 16, k.val ≠ s.sp.val → t.stack.get k = s.stack.get k) ∧
      t.sp.val = s.sp.val + 1 ∧ t.pc.toNat = nnn.toNat ∧ KeepsAllBut [.stack, .sp, .pc] s t) ∧
    (s.sp.val = 16 → Raises (.call nnn) s .stackOverflow none)

/-- R123: 00EE takes PC from the top entry, which keeps its value; with an empty stack it raises StackUnderflow and nothing is
written (decisions D4, D5; log 1). -/
def Obligations.ReturnPops : Prop :=
  ∀ s : State,
    decode 0x00EE#16 = some .ret ∧
    (s.sp.val ≠ 0 → Completes .ret s fun t =>
      t.sp.val = s.sp.val - 1 ∧ (∀ k : Fin 16, k.val = s.sp.val - 1 → t.pc = s.stack.get k) ∧
      KeepsAllBut [.sp, .pc] s t) ∧
    (s.sp.val = 0 → Raises .ret s .stackUnderflow none)

/-- R124, R125: 3xkk skips exactly when `V[x] = kk`, 4xkk exactly when it differs. -/
def Obligations.SkipOnConstant : Prop :=
  ∀ (x : Reg) (kk : Byte) (s : State),
    (decode (fmtXKK 0x3#4 x kk) = some (.seImm x kk) ∧
     Completes (.seImm x kk) s fun t =>
       (s.getV x = kk → t.pc = s.pc + 4) ∧ (s.getV x ≠ kk → t.pc = s.pc + 2) ∧ KeepsAllBut [.pc] s t) ∧
    (decode (fmtXKK 0x4#4 x kk) = some (.sneImm x kk) ∧
     Completes (.sneImm x kk) s fun t =>
       (s.getV x = kk → t.pc = s.pc + 2) ∧ (s.getV x ≠ kk → t.pc = s.pc + 4) ∧ KeepsAllBut [.pc] s t)

/-- R126, R127: 5xy0 skips exactly when `V[x] = V[y]`, 9xy0 exactly when they differ. -/
def Obligations.SkipOnRegisters : Prop :=
  ∀ (x y : Reg) (s : State),
    (decode (fmtXYN 0x5#4 x y 0x0#4) = some (.seReg x y) ∧
     Completes (.seReg x y) s fun t =>
       (s.getV x = s.getV y → t.pc = s.pc + 4) ∧ (s.getV x ≠ s.getV y → t.pc = s.pc + 2) ∧ KeepsAllBut [.pc] s t) ∧
    (decode (fmtXYN 0x9#4 x y 0x0#4) = some (.sneReg x y) ∧
     Completes (.sneReg x y) s fun t =>
       (s.getV x = s.getV y → t.pc = s.pc + 2) ∧ (s.getV x ≠ s.getV y → t.pc = s.pc + 4) ∧ KeepsAllBut [.pc] s t)

/-- R128: Bnnn sets PC to `V[0] + nnn`, not reduced modulo 4096 (decision D10; log 17). -/
def Obligations.JumpWithOffset : Prop :=
  ∀ (nnn : BitVec 12) (s : State),
    decode (fmtNNN 0xB#4 nnn) = some (.jpV0 nnn) ∧
    Completes (.jpV0 nnn) s fun t => t.pc.toNat = (s.getV 0).toNat + nnn.toNat ∧ KeepsAllBut [.pc] s t

/-- R129: a return in a state whose stack pointer is the one a call left, and whose entry under it is the one the call wrote, goes
to the address after the call and restores the stack pointer. Balanced calls in between, which leave other entries above the
stack pointer, are covered: nothing is asked of those entries. -/
def Obligations.CallThenReturn : Prop :=
  ∀ (nnn : BitVec 12) (s : State), s.sp.val < 16 →
    Completes (.call nnn) s fun t => ∀ u : State, u.sp = t.sp →
      (∀ k : Fin 16, k.val = s.sp.val → u.stack.get k = t.stack.get k) →
      Completes .ret u fun w => w.pc = s.pc + 2 ∧ w.sp = s.sp ∧ KeepsAllBut [.sp, .pc] u w

/-- R121, R216: a running core at a jump to its own address stays there, and only its timers count down
(decision D1). -/
def Obligations.SelfJumpOnlyTicks : Prop :=
  ∀ s : State, s.fault = none → s.params.timerMode = .coupled → s.AtSelfJump →
    ∃ t : State, step s = .next t ∧ t.AtSelfJump ∧ t.dt.toNat = s.dt.toNat - 1 ∧ t.st.toNat = s.st.toNat - 1 ∧
      KeepsAllBut [.dt, .st] s t

/-! ## Display -/

/-- R140: 00E0 turns every pixel off and writes nothing else. -/
def Obligations.ClearDisplay : Prop :=
  ∀ s : State,
    decode 0x00E0#16 = some .cls ∧
    Completes .cls s fun t =>
      (∀ q p : Nat, q < 32 → p < 64 → t.disp.pixel q p = false) ∧ t.pc = s.pc + 2 ∧ KeepsAllBut [.disp, .pc] s t

/-- R141, R142, R143: Dxyn inverts exactly the pixels on the grid under a set sprite bit, wrapping only the anchor, and sets VF
to 1 exactly when one of them was on; a range out of bounds raises OutOfBounds before anything is written.
Decisions D2, D4, D14 (log 1, log 8, log 18). -/
def Obligations.DrawSprite : Prop :=
  ∀ (x y : Reg) (n : BitVec 4) (s : State),
    decode (fmtXYN 0xD#4 x y n) = some (.drw x y n) ∧
    (n = 0 ∨ s.i.toNat + n.toNat - 1 ≤ 4095 →
      let ax := (s.getV x).toNat % 64
      let ay := (s.getV y).toNat % 32
      let hit : Nat → Nat → Prop := fun q p =>
        ∃ r c : Nat, r < n.toNat ∧ c < 8 ∧ q = ay + r ∧ p = ax + c ∧ q ≤ 31 ∧ p ≤ 63 ∧
          (s.mem.read (s.ea r)).getLsbD (7 - c) = true
      Completes (.drw x y n) s fun t =>
        (∀ q p : Nat, hit q p → t.disp.pixel q p = !s.disp.pixel q p) ∧
        (∀ q p : Nat, ¬hit q p → t.disp.pixel q p = s.disp.pixel q p) ∧
        ((∃ q p : Nat, hit q p ∧ s.disp.pixel q p = true) → t.getV 15 = 1) ∧
        ((∀ q p : Nat, hit q p → s.disp.pixel q p = false) → t.getV 15 = 0) ∧
        t.pc = s.pc + 2 ∧ KeepsRegs [15] s t ∧ KeepsAllBut [.regs, .disp, .pc] s t) ∧
    (n ≠ 0 → 4095 < s.i.toNat + n.toNat - 1 → Raises (.drw x y n) s .outOfBounds (some (max s.i.toNat 4096)))

/-- R141 (i), R143: drawing the same sprite twice at the same place restores the display; the second draw reports a collision
exactly when the first turned a pixel on. -/
def Obligations.DrawTwiceRestores : Prop :=
  ∀ (x y : Reg) (n : BitVec 4) (s : State), x ≠ 15 → y ≠ 15 → n = 0 ∨ s.i.toNat + n.toNat - 1 ≤ 4095 →
    Completes (.drw x y n) s fun t => Completes (.drw x y n) t fun u =>
      (∀ q p : Nat, u.disp.pixel q p = s.disp.pixel q p) ∧
      ((∃ q p : Nat, s.disp.pixel q p = false ∧ t.disp.pixel q p = true) → u.getV 15 = 1) ∧
      ((∀ q p : Nat, s.disp.pixel q p = false → t.disp.pixel q p = false) → u.getV 15 = 0)

/-- R144: only 00E0 and Dxyn write the display; no other instruction's effect depends on it; and on Dxyn it has no influence but
through the collision flag. -/
def Obligations.DisplayIsIsolated : Prop :=
  (∀ (i : Instr) (s t : State) (d : Display), (∀ x y n, i ≠ .drw x y n) → exec i s = .next t →
    (i ≠ .cls → t.disp = s.disp) ∧ exec i (s.setDisp d) = .next (t.setDisp (if i = .cls then t.disp else d))) ∧
  (∀ (x y : Reg) (n : BitVec 4) (s t : State) (d : Display), exec (.drw x y n) s = .next t →
    Completes (.drw x y n) (s.setDisp d) fun u => KeepsRegs [15] t u ∧ KeepsAllBut [.regs, .disp] t u)

/-! ## Index register and memory -/

/-- R150, R151, R152: Annn, Fx1E and Fx29 write `I`: `nnn`; `I + V[x]` modulo 65536; `0x050 + 5 * V[x]` on all 8 bits. None
writes VF. The font base 0x050 is decision D12 (log 12), the use of all 8 bits log 31. -/
def Obligations.IndexWrites : Prop :=
  (∀ (nnn : BitVec 12) (s : State),
    decode (fmtNNN 0xA#4 nnn) = some (.ldI nnn) ∧
    Completes (.ldI nnn) s fun t => t.i.toNat = nnn.toNat ∧ t.pc = s.pc + 2 ∧ KeepsAllBut [.index, .pc] s t) ∧
  (∀ (x : Reg) (s : State),
    (decode (fmtXS 0xF#4 x 0x1E#8) = some (.addI x) ∧
     Completes (.addI x) s fun t =>
       t.i.toNat = (s.i.toNat + (s.getV x).toNat) % 65536 ∧ t.pc = s.pc + 2 ∧ KeepsAllBut [.index, .pc] s t) ∧
    (decode (fmtXS 0xF#4 x 0x29#8) = some (.ldF x) ∧
     Completes (.ldF x) s fun t =>
       t.i.toNat = 0x050 + 5 * (s.getV x).toNat ∧ t.pc = s.pc + 2 ∧ KeepsAllBut [.index, .pc] s t))

/-- R153: Fx33 stores the hundreds, tens and ones of `V[x]` at `I`, `I + 1`, `I + 2`, and every other byte and `I` are kept; above
4093 it raises OutOfBounds and writes nothing (decisions D4, D10; log 1). -/
def Obligations.StoreDecimalDigits : Prop :=
  ∀ (x : Reg) (s : State),
    decode (fmtXS 0xF#4 x 0x33#8) = some (.ldB x) ∧
    (s.i.toNat ≤ 4093 → Completes (.ldB x) s fun t =>
      (t.mem.read (s.ea 0)).toNat = (s.getV x).toNat / 100 ∧ (t.mem.read (s.ea 1)).toNat = (s.getV x).toNat / 10 % 10 ∧
      (t.mem.read (s.ea 2)).toNat = (s.getV x).toNat % 10 ∧ t.pc = s.pc + 2 ∧
      KeepsMemOutside (s.ea 0) 3 s t ∧ KeepsAllBut [.mem, .pc] s t) ∧
    (4093 < s.i.toNat → Raises (.ldB x) s .outOfBounds (some (max s.i.toNat 4096)))

/-- R154: Fx55 stores `V[0]` to `V[x]`, x included, at `I` upward, and every other byte, `I` and the registers are kept; past the
end of memory it raises OutOfBounds and writes nothing (decisions D4, D10; log 1). -/
def Obligations.StoreRegisters : Prop :=
  ∀ (x : Reg) (s : State),
    decode (fmtXS 0xF#4 x 0x55#8) = some (.storeRegs x) ∧
    (s.i.toNat + x.val ≤ 4095 → Completes (.storeRegs x) s fun t =>
      (∀ k : Reg, k ≤ x → t.mem.read (s.ea k.val) = s.getV k) ∧ t.pc = s.pc + 2 ∧
      KeepsMemOutside (s.ea 0) (x.val + 1) s t ∧ KeepsAllBut [.mem, .pc] s t) ∧
    (4095 < s.i.toNat + x.val → Raises (.storeRegs x) s .outOfBounds (some (max s.i.toNat 4096)))

/-- R155: Fx65 loads `V[0]` to `V[x]`, x included, from `I` upward; the registers above, `I` and memory are kept; past the end of
memory it raises OutOfBounds and no register changes (decisions D4, D10; log 1). -/
def Obligations.LoadRegisters : Prop :=
  ∀ (x : Reg) (s : State),
    decode (fmtXS 0xF#4 x 0x65#8) = some (.loadRegs x) ∧
    (s.i.toNat + x.val ≤ 4095 → Completes (.loadRegs x) s fun t =>
      (∀ k : Reg, k ≤ x → t.getV k = s.mem.read (s.ea k.val)) ∧ (∀ k : Reg, x < k → t.getV k = s.getV k) ∧
      t.pc = s.pc + 2 ∧ KeepsAllBut [.regs, .pc] s t) ∧
    (4095 < s.i.toNat + x.val → Raises (.loadRegs x) s .outOfBounds (some (max s.i.toNat 4096)))

/-- R51: the bytes that Fx55 stored are the bytes of the instruction that any later fetch reads there. -/
def Obligations.StoreSeenByFetch : Prop :=
  ∀ (x k l : Reg) (s : State), s.i.toNat + x.val ≤ 4095 → l.val = k.val + 1 → l ≤ x →
    Completes (.storeRegs x) s fun t => ∀ u : State, u.mem = t.mem → u.pc.toNat = s.ea k.val →
      u.fetch = .ok (s.getV k ++ s.getV l)

/-- R17, R48, R49: a read gives the byte last written at its address, a write leaves every other byte alone, and a canonical
memory is nothing but its bytes: two that read alike at every address are equal data. -/
def Obligations.MemoryIsItsBytes : Prop :=
  (∀ (m : Memory) (a b : Nat) (w : Byte), a < 4096 →
    (m.write a w).read a = w ∧ (b ≠ a → (m.write a w).read b = m.read b)) ∧
  (∀ m n : Memory, m.wf → n.wf → (∀ a : Nat, m.read a = n.read a) → m = n)

/-! ## Timers and keys -/

/-- R170, R171, R176: Ex9E skips exactly when the key of id `V[x]` is pressed in this cycle's sample, ExA1 exactly when it is
not; an id above 15 raises KeyIndexOutOfRange (decision D6; log 1, log 20). The sample is the model's input (log 3). -/
def Obligations.KeySkips : Prop :=
  ∀ (x : Reg) (s : State),
    (decode (fmtXS 0xE#4 x 0x9E#8) = some (.skp x) ∧
     ((s.getV x).toNat ≤ 15 → Completes (.skp x) s fun t =>
       (s.nextKeys.getLsbD (s.getV x).toNat = true → t.pc = s.pc + 4) ∧
       (s.nextKeys.getLsbD (s.getV x).toNat = false → t.pc = s.pc + 2) ∧ KeepsAllBut [.pc, .inputs] s t) ∧
     (15 < (s.getV x).toNat → Raises (.skp x) s .keyIndexOutOfRange (some (s.getV x).toNat))) ∧
    (decode (fmtXS 0xE#4 x 0xA1#8) = some (.sknp x) ∧
     ((s.getV x).toNat ≤ 15 → Completes (.sknp x) s fun t =>
       (s.nextKeys.getLsbD (s.getV x).toNat = false → t.pc = s.pc + 4) ∧
       (s.nextKeys.getLsbD (s.getV x).toNat = true → t.pc = s.pc + 2) ∧ KeepsAllBut [.pc, .inputs] s t) ∧
     (15 < (s.getV x).toNat → Raises (.sknp x) s .keyIndexOutOfRange (some (s.getV x).toNat)))

/-- R172, R174, R175: Fx07 copies DT to `V[x]`; Fx15 and Fx18 copy `V[x]` to DT and ST; in coupled mode the tick that ends the
same cycle comes after; after Fx18 wrote `v` the sound is on for the boundaries 1 to `v - 1`, counted in ticks. -/
def Obligations.TimerAccess : Prop :=
  ∀ (x : Reg) (s : State),
    (decode (fmtXS 0xF#4 x 0x07#8) = some (.ldVxDT x) ∧
     Completes (.ldVxDT x) s fun t =>
       t.getV x = s.dt ∧ t.pc = s.pc + 2 ∧ KeepsRegs [x] s t ∧ KeepsAllBut [.regs, .pc] s t) ∧
    (decode (fmtXS 0xF#4 x 0x15#8) = some (.ldDTVx x) ∧
     Completes (.ldDTVx x) s fun t =>
       t.dt = s.getV x ∧ t.pc = s.pc + 2 ∧ KeepsAllBut [.dt, .pc] s t ∧
       (s.fault = none → s.params.timerMode = .coupled → t.endCycle.dt.toNat = (s.getV x).toNat - 1)) ∧
    (decode (fmtXS 0xF#4 x 0x18#8) = some (.ldSTVx x) ∧
     Completes (.ldSTVx x) s fun t =>
       t.st = s.getV x ∧ t.pc = s.pc + 2 ∧ KeepsAllBut [.st, .pc] s t ∧
       (s.fault = none → s.params.timerMode = .coupled → t.endCycle.st.toNat = (s.getV x).toNat - 1) ∧
       ∀ j : Nat, (State.tick^[j] t).soundOn = true ↔ j < (s.getV x).toNat)

/-- R173: with no key pressed Fx0A leaves PC at its own address and every register; with one pressed it writes the id of a
pressed key, under the default choice the lowest, and goes on. The sample is the model's input (log 3), the choice decision D7
(log 7). -/
def Obligations.WaitForKey : Prop :=
  ∀ (x : Reg) (s : State),
    decode (fmtXS 0xF#4 x 0x0A#8) = some (.ldVxK x) ∧
    (s.nextKeys = 0 → Completes (.ldVxK x) s fun t => t.pc = s.pc ∧ KeepsAllBut [.inputs] s t) ∧
    (s.nextKeys ≠ 0 → Completes (.ldVxK x) s fun t =>
      (∃ k : Nat, k ≤ 15 ∧ s.nextKeys.getLsbD k = true ∧ (t.getV x).toNat = k ∧
        (s.params.keyPick = .lowest → ∀ j : Nat, j < k → s.nextKeys.getLsbD j = false)) ∧
      t.pc = s.pc + 2 ∧ KeepsRegs [x] s t ∧ KeepsAllBut [.regs, .pc, .inputs] s t)

/-- R215: one tick lowers each timer that is not 0 by one, leaves a 0 at 0, and touches nothing else. -/
def Obligations.TickCountsDown : Prop :=
  ∀ s : State,
    (0 < s.dt.toNat → s.tick.dt.toNat = s.dt.toNat - 1) ∧ (s.dt = 0 → s.tick.dt = 0) ∧
    (0 < s.st.toNat → s.tick.st.toNat = s.st.toNat - 1) ∧ (s.st = 0 → s.tick.st = 0) ∧
    KeepsAllBut [.dt, .st] s s.tick

/-- R216: in coupled mode a cycle that completes ends with one tick of what its handler left; a failing one does not
tick. Decisions D1, D4 (log 1, log 5). -/
def Obligations.CoupledCycleTicks : Prop :=
  ∀ (s u : State) (op : Word) (i : Instr), s.fault = none → s.params.timerMode = .coupled →
    s.fetch = .ok op → decode op = some i → exec i s = .next u →
    (u.fault = none → ∃ t : State, step s = .next t ∧ t.dt.toNat = u.dt.toNat - 1 ∧ t.st.toNat = u.st.toNat - 1 ∧
      KeepsAllBut [.dt, .st] u t) ∧
    (u.fault ≠ none → step s = .next u)

/-- R217, R33: in external mode an event is a tick, which moves only the timers, or a step, whose cycle does not tick: it runs the
decoded instruction, or latches the failure of the fetch or of the unknown word. Which of them comes is the model's input (log 6);
the failures' form rests on decisions D4, D5 (log 1). -/
def Obligations.ExternalTicks : Prop :=
  ∀ s : State, s.fault = none → s.params.timerMode = .external →
    (s.nextIsTick = true → ∃ t : State, step s = .next t ∧ t.dt.toNat = s.dt.toNat - 1 ∧ t.st.toNat = s.st.toNat - 1 ∧
      KeepsAllBut [.dt, .st, .inputs] s t) ∧
    (s.nextIsTick = false →
      (∀ (op : Word) (i : Instr), s.fetch = .ok op → decode op = some i → step s = exec i s.tookEvent) ∧
      (∀ op : Word, s.fetch = .ok op → decode op = none → step s = .next { s.tookEvent with
        fault := some { kind := .unknownOpcode, op := some op, pc := s.pc, addr := none } }) ∧
      (∀ a : Nat, s.fetch = .error a → step s = .next { s.tookEvent with
        fault := some { kind := .outOfBounds, op := none, pc := s.pc, addr := some a } }))

/-! ## The whole machine -/

/-- R22, R71: an instruction writes no piece of state and no register outside its write set; a call writes no stack entry but
the one at SP; Fx33 writes no byte of memory but the 3 from `I` on, and Fx55 none but the `x + 1` from `I` on. -/
def Obligations.WriteSets : Prop :=
  ∀ (i : Instr) (s t : State), exec i s = .next t →
    KeepsAllBut (.fault :: writesOf i) s t ∧ KeepsRegs (regsOf i) s t ∧
    (∀ k : Fin 16, k.val ≠ s.sp.val → t.stack.get k = s.stack.get k) ∧
    (∀ x : Reg, i = .ldB x → KeepsMemOutside (s.ea 0) 3 s t) ∧
    (∀ x : Reg, i = .storeRegs x → KeepsMemOutside (s.ea 0) (x.val + 1) s t)

/-- R11, R242: VF changes only by the six flag-writing instructions or where it is a destination register. -/
def Obligations.WhoWritesTheFlagRegister : Prop :=
  ∀ (i : Instr) (s t : State), exec i s = .next t → t.getV 15 ≠ s.getV 15 →
    (∃ x y, i = .addReg x y ∨ i = .sub x y ∨ i = .shr x y ∨ i = .subn x y ∨ i = .shl x y) ∨
    (∃ x y n, i = .drw x y n) ∨
    (∃ kk, i = .ldImm 15 kk ∨ i = .addImm 15 kk ∨ i = .rnd 15 kk) ∨
    (∃ y, i = .ldReg 15 y ∨ i = .orReg 15 y ∨ i = .andReg 15 y ∨ i = .xorReg 15 y) ∨
    i = .ldVxDT 15 ∨ i = .ldVxK 15 ∨ i = .loadRegs 15

/-- R13, R15, R19: from every state that meets the invariant, a step gives one that meets it: memory canonical, PC at most 4350,
every return address at most 4096, a latched record consistent and of this state's PC. -/
def Obligations.StepKeepsInvariant : Prop := ∀ s t : State, s.Inv → step s = .next t → t.Inv

/-- The invariant holds right after reset. -/
def Obligations.ResetMeetsInvariant : Prop :=
  State.reset.Inv ∧ ∀ font rom : List Byte, (State.reset.resetEvent font rom).Inv

/-- R46, conflict C2: control stays on even addresses as long as no jump or call names an odd one. -/
def Obligations.EvenAddressesStayEven : Prop :=
  ∀ (i : Instr) (s t : State), s.Even → TargetEven s i → exec i s = .next t → t.Even

/-- R35, R230, R231: what reset leaves, for every font of 80 bytes and every ROM that fits: everything zeroed, the font at 0x050,
the ROM at 0x200, PC there, no failure. -/
def Obligations.ResetState : Prop :=
  ∀ (s : State) (font rom : List Byte), fontFits font = true → romFits rom = true →
    let t := s.resetEvent font rom
    (∀ r : Reg, t.getV r = 0) ∧ t.i = 0 ∧ t.pc = 0x200 ∧ t.sp.val = 0 ∧ (∀ k : Fin 16, t.stack.get k = 0) ∧
    t.dt = 0 ∧ t.st = 0 ∧ t.fault = none ∧ t.soundOn = false ∧
    (∀ q p : Nat, t.disp.pixel q p = false) ∧
    (∀ k : Nat, k < 80 → t.mem.read (0x050 + k) = font.getD k 0) ∧
    (∀ k : Nat, k < rom.length → t.mem.read (0x200 + k) = rom.getD k 0) ∧
    (∀ a : Nat, a < 0x050 ∨ (0x0A0 ≤ a ∧ a < 0x200) ∨ 0x200 + rom.length ≤ a → t.mem.read a = 0)
end

