-- ==== Sys2Proof/Laws/Display.lean ====
section
/-! SUPPORT. Display: what a pixel reads after a toggle, a clear, a drawn row and a drawn sprite. -/

namespace Sys2Proof.Machine

/-- A pixel after a toggle: the toggled one is inverted if it lies on the grid, every other one is kept. -/
theorem Display.pixel_toggle (d : Display) (y x q p : Nat) :
    (d.toggle y x).pixel q p = if q = y ∧ p = x ∧ y < 32 ∧ x < 64 then !d.pixel y x else d.pixel q p := by
  unfold Display.toggle
  by_cases h : y < 32 ∧ x < 64
  · by_cases hq : q < 32 ∧ p < 64
    · by_cases h1 : y = q
      · subst h1
        by_cases h2 : x = p
        · subst h2
          simp [Display.pixel, h]
        · simp [Display.pixel, h, hq, h2, Ne.symm h2]
      · simp [Display.pixel, h, hq, h1, Ne.symm h1]
    · have : ¬(q = y ∧ p = x) := fun e => hq ⟨e.1 ▸ h.1, e.2 ▸ h.2⟩
      simp only [Display.pixel, hq, dif_neg, not_false_eq_true]
      split
      · rename_i e
        exact absurd ⟨e.1, e.2.1⟩ this
      · rfl
  · have : ¬(q = y ∧ p = x ∧ y < 32 ∧ x < 64) := fun e => h e.2.2
    rw [dif_neg h, if_neg this]

/-- No pixel is on after a clear. -/
theorem Display.pixel_clear (y x : Nat) : Display.clear.pixel y x = false := by
  unfold Display.pixel Display.clear
  split <;> simp

/-- Off the grid no pixel is on. -/
theorem Display.pixel_off_grid (d : Display) (y x : Nat) (h : ¬(y < 32 ∧ x < 64)) : d.pixel y x = false := by
  simp [Display.pixel, h]

/-- Drawing a row inverts exactly the pixels on the grid under a set bit, and reports whether one of them was on. -/
theorem Display.xorRow_spec (d : Display) (y x : Nat) (bits : List Bool) :
    (∀ q p, (d.xorRow y x bits).1.pixel q p = (d.pixel q p ^^ (decide (q = y ∧ y < 32 ∧ x ≤ p ∧ p < 64) && bits.getD (p - x) false))) ∧
  ((d.xorRow y x bits).2 = true ↔ ∃ k, bits.getD k false = true ∧ d.pixel y (x + k) = true) := by
  induction bits generalizing d x with
  | nil => simp [Display.xorRow]
  | cons b bits ih =>
    cases b with
    | false =>
      obtain ⟨i1, i2⟩ := ih d (x+1)
      refine ⟨fun q p => ?_, ?_⟩
      · show (d.xorRow y (x+1) bits).1.pixel q p = _
        rw [i1]
        rcases Nat.lt_trichotomy x p with h | h | h
        · have e : p - x = p - (x+1) + 1 := by omega
          rw [e]; simp [show x + 1 ≤ p by omega, show x ≤ p by omega]
        · subst h; simp
        · simp [show ¬ x + 1 ≤ p by omega, show ¬ x ≤ p by omega]
      · show (d.xorRow y (x+1) bits).2 = true ↔ _
        rw [i2]
        constructor
        · rintro ⟨k, h1, h2⟩; exact ⟨k+1, by simpa using h1, by rw [← h2]; congr 1; omega⟩
        · rintro ⟨k, h1, h2⟩
          cases k with
          | zero => simp at h1
          | succ k => exact ⟨k, by simpa using h1, by rw [← h2]; congr 1; omega⟩
    | true =>
      obtain ⟨i1, i2⟩ := ih (d.toggle y x) (x+1)
      refine ⟨fun q p => ?_, ?_⟩
      · show ((d.toggle y x).xorRow y (x+1) bits).1.pixel q p = _
        rw [i1, Display.pixel_toggle]
        rcases Nat.lt_trichotomy x p with h | h | h
        · have e : p - x = p - (x+1) + 1 := by omega
          rw [e]; simp [show x + 1 ≤ p by omega, show x ≤ p by omega, show ¬ p = x by omega]
        · subst h; by_cases hq : q = y
          · subst hq
            by_cases h1 : q < 32 <;> by_cases h2 : x < 64 <;> simp [h1, h2]
          · simp [hq]
        · simp [show ¬ x + 1 ≤ p by omega, show ¬ x ≤ p by omega, show ¬ p = x by omega]
      · show (d.pixel y x || ((d.toggle y x).xorRow y (x+1) bits).2) = true ↔ _
        rw [Bool.or_eq_true, i2]
        constructor
        · rintro (h | ⟨k, h1, h2⟩)
          · exact ⟨0, by simp, by simpa using h⟩
          · rw [Display.pixel_toggle] at h2
            simp [show ¬ x + 1 + k = x by omega] at h2
            exact ⟨k+1, by simpa using h1, by rw [← h2]; congr 1; omega⟩
        · rintro ⟨k, h1, h2⟩
          cases k with
          | zero => left; simpa using h2
          | succ k =>
            right
            refine ⟨k, by simpa using h1, ?_⟩
            rw [Display.pixel_toggle]
            simp [show ¬ x + 1 + k = x by omega]
            rw [← h2]; congr 1; omega

/-- Drawing a sprite inverts exactly the pixels on the grid under a set sprite bit, and reports whether one of them was on. -/
theorem Display.xorSprite_spec (d : Display) (y x : Nat) (bs : List Byte) :
  (∀ q p, (d.xorSprite y x bs).1.pixel q p = (d.pixel q p ^^ (decide (y ≤ q ∧ q < 32 ∧ x ≤ p ∧ p < 64) && (spriteBits (bs.getD (q - y) 0)).getD (p - x) false))) ∧
  ((d.xorSprite y x bs).2 = true ↔ ∃ r k, (spriteBits (bs.getD r 0)).getD k false = true ∧ d.pixel (y + r) (x + k) = true) := by
  have z : ∀ k, (spriteBits 0).getD k false = false := by
    intro k
    have : spriteBits 0 = [false,false,false,false,false,false,false,false] := by decide
    rw [this]
    rcases k with _|_|_|_|_|_|_|_|k <;> simp
  induction bs generalizing d y with
  | nil =>
    refine ⟨fun q p => ?_, ?_⟩
    · show d.pixel q p = _
      simp only [List.getD_nil]; rw [z]; simp
    · simp only [Display.xorSprite, List.getD_nil, z]; simp
  | cons b bs ih =>
    obtain ⟨r1, r2⟩ := Display.xorRow_spec d y x (spriteBits b)
    obtain ⟨i1, i2⟩ := ih (d.xorRow y x (spriteBits b)).1 (y+1)
    refine ⟨fun q p => ?_, ?_⟩
    · show (((d.xorRow y x (spriteBits b)).1).xorSprite (y+1) x bs).1.pixel q p = _
      rw [i1, r1]
      rcases Nat.lt_trichotomy y q with h | h | h
      · have e : q - y = q - (y+1) + 1 := by omega
        rw [e]; simp [show y + 1 ≤ q by omega, show y ≤ q by omega, show ¬ q = y by omega]
      · subst h; simp
      · simp [show ¬ y + 1 ≤ q by omega, show ¬ y ≤ q by omega, show ¬ q = y by omega]
    · show ((d.xorRow y x (spriteBits b)).2 || (((d.xorRow y x (spriteBits b)).1).xorSprite (y+1) x bs).2) = true ↔ _
      rw [Bool.or_eq_true, r2, i2]
      constructor
      · rintro (⟨k, h1, h2⟩ | ⟨r, k, h1, h2⟩)
        · exact ⟨0, k, by simpa using h1, by simpa using h2⟩
        · rw [r1] at h2; simp [show ¬ y + 1 + r = y by omega] at h2
          exact ⟨r+1, k, by simpa using h1, by rw [← h2]; congr 1; omega⟩
      · rintro ⟨r, k, h1, h2⟩
        cases r with
        | zero => left; exact ⟨k, by simpa using h1, by simpa using h2⟩
        | succ r =>
          right
          refine ⟨r, k, by simpa using h1, ?_⟩
          rw [r1]; simp [show ¬ y + 1 + r = y by omega]; rw [← h2]; congr 1; omega

/-- Sprite bit `k` of a row, counted from the left, is bit `7 - k` of its byte. -/
theorem getD_spriteBits (b : Byte) (k : Nat) : (spriteBits b).getD k false = (decide (k < 8) && b.getLsbD (7 - k)) := by
  unfold spriteBits
  rcases k with _|_|_|_|_|_|_|_|k <;> simp

end Sys2Proof.Machine
end

