-- ==== Sys2Proof/Laws/Encoding.lean ====
section
/-! SUPPORT. The number that a word of each format of spec/30_encoding.md R61 spells, the fields of it, and the two bytes of a
word. -/

namespace Sys2Proof

/-- A concatenation as a number. -/
theorem toNat_append_eq {m n : Nat} (a : BitVec m) (b : BitVec n) : (a ++ b).toNat = a.toNat * 2 ^ n + b.toNat := by
  rw [BitVec.toNat_append, ← Nat.shiftLeft_add_eq_or_of_lt b.isLt, Nat.shiftLeft_eq]

theorem toNat_regBits (r : Reg) : (regBits r).toNat = r.val := rfl

/-! ### The number of a word -/

theorem toNat_fmtNNN (g : BitVec 4) (nnn : BitVec 12) : (fmtNNN g nnn).toNat = g.toNat * 4096 + nnn.toNat :=
  toNat_append_eq g nnn

theorem toNat_fmtXKK (g : BitVec 4) (x : Reg) (kk : Byte) :
    (fmtXKK g x kk).toNat = g.toNat * 4096 + x.val * 256 + kk.toNat := by
  have h1 : (fmtXKK g x kk).toNat = (g ++ regBits x : BitVec (4 + 4)).toNat * 2 ^ 8 + kk.toNat := toNat_append_eq _ kk
  rw [h1, toNat_append_eq, toNat_regBits]
  omega

theorem toNat_fmtXYN (g : BitVec 4) (x y : Reg) (n : BitVec 4) :
    (fmtXYN g x y n).toNat = g.toNat * 4096 + x.val * 256 + y.val * 16 + n.toNat := by
  have h1 : (fmtXYN g x y n).toNat = (g ++ regBits x ++ regBits y : BitVec (4 + 4 + 4)).toNat * 2 ^ 4 + n.toNat :=
    toNat_append_eq _ n
  rw [h1, toNat_append_eq, toNat_append_eq, toNat_regBits, toNat_regBits]
  omega

theorem fmtXS_eq (g : BitVec 4) (x : Reg) (sel : Byte) : fmtXS g x sel = fmtXKK g x sel := rfl

theorem toNat_wordOfBytes (hi lo : Byte) : (wordOfBytes hi lo).toNat = hi.toNat * 256 + lo.toNat := toNat_append_eq hi lo

/-! ### The fields of a word as numbers -/

theorem toNat_fieldG (op : Word) : (fieldG op).toNat = op.toNat / 4096 := by
  have := op.isLt
  simp only [fieldG, BitVec.extractLsb'_toNat, Nat.shiftRight_eq_div_pow]
  omega

theorem val_fieldX (op : Word) : (fieldX op).val = op.toNat / 256 % 16 := by
  show (op.extractLsb' 8 4).toNat = _
  simp [BitVec.extractLsb'_toNat, Nat.shiftRight_eq_div_pow]

theorem val_fieldY (op : Word) : (fieldY op).val = op.toNat / 16 % 16 := by
  show (op.extractLsb' 4 4).toNat = _
  simp [BitVec.extractLsb'_toNat, Nat.shiftRight_eq_div_pow]

theorem toNat_fieldN (op : Word) : (fieldN op).toNat = op.toNat % 16 := by
  simp [fieldN, BitVec.extractLsb'_toNat]

theorem toNat_fieldKK (op : Word) : (fieldKK op).toNat = op.toNat % 256 := by
  simp [fieldKK, BitVec.extractLsb'_toNat]

theorem toNat_fieldNNN (op : Word) : (fieldNNN op).toNat = op.toNat % 4096 := by
  simp [fieldNNN, BitVec.extractLsb'_toNat]

/-! ### The fields of each format -/

@[simp] theorem fieldG_fmtNNN (g : BitVec 4) (nnn : BitVec 12) : fieldG (fmtNNN g nnn) = g := by
  apply BitVec.eq_of_toNat_eq
  rw [toNat_fieldG, toNat_fmtNNN]
  have := nnn.isLt
  omega

@[simp] theorem fieldNNN_fmtNNN (g : BitVec 4) (nnn : BitVec 12) : fieldNNN (fmtNNN g nnn) = nnn := by
  apply BitVec.eq_of_toNat_eq
  rw [toNat_fieldNNN, toNat_fmtNNN]
  have := nnn.isLt
  omega

@[simp] theorem fieldG_fmtXKK (g : BitVec 4) (x : Reg) (kk : Byte) : fieldG (fmtXKK g x kk) = g := by
  apply BitVec.eq_of_toNat_eq
  rw [toNat_fieldG, toNat_fmtXKK]
  have := x.isLt
  have := kk.isLt
  omega

@[simp] theorem fieldX_fmtXKK (g : BitVec 4) (x : Reg) (kk : Byte) : fieldX (fmtXKK g x kk) = x := by
  apply Fin.ext
  rw [val_fieldX, toNat_fmtXKK]
  have := x.isLt
  have := kk.isLt
  omega

@[simp] theorem fieldKK_fmtXKK (g : BitVec 4) (x : Reg) (kk : Byte) : fieldKK (fmtXKK g x kk) = kk := by
  apply BitVec.eq_of_toNat_eq
  rw [toNat_fieldKK, toNat_fmtXKK]
  have := kk.isLt
  omega

@[simp] theorem fieldG_fmtXYN (g : BitVec 4) (x y : Reg) (n : BitVec 4) : fieldG (fmtXYN g x y n) = g := by
  apply BitVec.eq_of_toNat_eq
  rw [toNat_fieldG, toNat_fmtXYN]
  have := x.isLt
  have := y.isLt
  have := n.isLt
  omega

@[simp] theorem fieldX_fmtXYN (g : BitVec 4) (x y : Reg) (n : BitVec 4) : fieldX (fmtXYN g x y n) = x := by
  apply Fin.ext
  rw [val_fieldX, toNat_fmtXYN]
  have := x.isLt
  have := y.isLt
  have := n.isLt
  omega

@[simp] theorem fieldY_fmtXYN (g : BitVec 4) (x y : Reg) (n : BitVec 4) : fieldY (fmtXYN g x y n) = y := by
  apply Fin.ext
  rw [val_fieldY, toNat_fmtXYN]
  have := x.isLt
  have := y.isLt
  have := n.isLt
  omega

@[simp] theorem fieldN_fmtXYN (g : BitVec 4) (x y : Reg) (n : BitVec 4) : fieldN (fmtXYN g x y n) = n := by
  apply BitVec.eq_of_toNat_eq
  rw [toNat_fieldN, toNat_fmtXYN]
  have := n.isLt
  omega

/-! ### Bytes -/

/-- The two bytes of a word in memory order spell the word again. -/
theorem wordOfBytes_bytes (op : Word) : wordOfBytes (op.extractLsb' 8 8) (op.extractLsb' 0 8) = op := by
  apply BitVec.eq_of_toNat_eq
  rw [toNat_wordOfBytes]
  have := op.isLt
  simp only [BitVec.extractLsb'_toNat, Nat.shiftRight_eq_div_pow]
  omega

end Sys2Proof
end

