-- ==== Sys2Proof/Laws/Memory.lean ====
section
/-! SUPPORT. Memory: what a read gives after a write, and that every operation keeps the canonical form. -/

namespace Sys2Proof.Machine

/-! ### Reading after a write, in any memory, canonical or not -/

theorem Memory.read_drop_same (m : Memory) (a : Nat) : (Memory.drop a m).read a = Memory.base a := by
  induction m with
  | nil => rfl
  | cons c rest ih =>
    obtain ⟨b, u⟩ := c
    by_cases h : b = a <;> simp [Memory.drop, Memory.read, h, ih]

theorem Memory.read_drop_ne (m : Memory) (a b : Nat) (h : b ≠ a) : (Memory.drop a m).read b = m.read b := by
  induction m with
  | nil => rfl
  | cons c rest ih =>
    obtain ⟨d, u⟩ := c
    by_cases hd : d = a
    · simp [Memory.drop, Memory.read, hd, ih, Ne.symm h]
    · simp [Memory.drop, Memory.read, hd, ih]

/-- No entry of `m` has the address `a`. -/
theorem Memory.not_mem_drop (m : Memory) (a : Nat) : ∀ c ∈ Memory.drop a m, c.1 ≠ a := by
  induction m with
  | nil => simp [Memory.drop]
  | cons c rest ih =>
    obtain ⟨b, u⟩ := c
    by_cases h : b = a
    · simpa [Memory.drop, h] using ih
    · intro c hc
      simp only [Memory.drop, h, if_false, List.mem_cons] at hc
      rcases hc with rfl | hc
      · exact h
      · exact ih c hc

theorem Memory.read_insert_same (m : Memory) (a : Nat) (w : Byte) (h : ∀ c ∈ m, c.1 ≠ a) :
    (Memory.insert a w m).read a = w := by
  induction m with
  | nil => simp [Memory.insert, Memory.read]
  | cons c rest ih =>
    obtain ⟨b, u⟩ := c
    have hb : b ≠ a := h (b, u) (by simp)
    have hr : ∀ c ∈ rest, c.1 ≠ a := fun c hc => h c (by simp [hc])
    by_cases hl : a < b <;> simp [Memory.insert, Memory.read, hl, hb, ih hr]

theorem Memory.read_insert_ne (m : Memory) (a b : Nat) (w : Byte) (h : b ≠ a) :
    (Memory.insert a w m).read b = m.read b := by
  induction m with
  | nil => simp [Memory.insert, Memory.read, Ne.symm h]
  | cons c rest ih =>
    obtain ⟨d, u⟩ := c
    by_cases hl : a < d
    · simp [Memory.insert, Memory.read, hl, Ne.symm h]
    · simp [Memory.insert, Memory.read, hl, ih]

/-- A read of any address after a write. -/
theorem Memory.read_write (m : Memory) (a b : Nat) (w : Byte) :
    (m.write a w).read b = if b = a ∧ a < memSize then w else m.read b := by
  unfold Memory.write
  by_cases ha : a < memSize
  · by_cases hb : b = a
    · subst hb
      by_cases hw : w = Memory.base b
      · simp [ha, hw, Memory.read_drop_same]
      · simp [ha, hw, Memory.read_insert_same _ _ _ (Memory.not_mem_drop m b)]
    · by_cases hw : w = Memory.base a
      · simp [ha, hb, hw, Memory.read_drop_ne]
      · simp [ha, hb, hw, Memory.read_insert_ne, Memory.read_drop_ne]
  · simp [ha]

/-- A read of any address after a run of writes. -/
theorem Memory.read_writeBytes (m : Memory) (a b : Nat) (bs : List Byte) :
    (m.writeBytes a bs).read b = if a ≤ b ∧ b < memSize then bs.getD (b - a) (m.read b) else m.read b := by
  induction bs generalizing m a with
  | nil => simp [Memory.writeBytes]
  | cons w bs ih =>
    rw [Memory.writeBytes, ih, Memory.read_write]
    rcases Nat.lt_trichotomy a b with h | h | h
    · have e : b - a = b - (a + 1) + 1 := by omega
      simp [show a + 1 ≤ b by omega, show a ≤ b by omega, show ¬ b = a by omega, e]
    · subst h
      by_cases hs : a < memSize <;> simp [hs]
    · simp [show ¬ a + 1 ≤ b by omega, show ¬ a ≤ b by omega, show ¬ b = a by omega]

/-- A run of writes leaves every byte outside it alone. -/
theorem Memory.read_writeBytes_outside (m : Memory) (a b : Nat) (bs : List Byte) (h : ¬(a ≤ b ∧ b < a + bs.length)) :
    (m.writeBytes a bs).read b = m.read b := by
  rw [Memory.read_writeBytes]
  split
  · rw [List.getD_eq_default]
    omega
  · rfl

theorem Memory.length_readBytes (m : Memory) (a n : Nat) : (m.readBytes a n).length = n := by
  induction n generalizing a with
  | zero => rfl
  | succ n ih => simp [Memory.readBytes, ih]

/-- The bytes of a run of reads. -/
theorem Memory.getD_readBytes (m : Memory) (a n k : Nat) (d : Byte) :
    (m.readBytes a n).getD k d = if k < n then m.read (a + k) else d := by
  induction n generalizing a k with
  | zero => simp [Memory.readBytes]
  | succ n ih =>
    cases k with
    | zero => simp [Memory.readBytes]
    | succ k =>
      have := ih (a + 1) k
      simp only [List.getD_eq_getElem?_getD] at this ⊢
      simp [Memory.readBytes, this, Nat.add_assoc, Nat.add_comm 1 k]

/-! ### The canonical form is kept -/

theorem Memory.wf_nil : Memory.wf [] := by simp [Memory.wf]

theorem Memory.drop_sublist (a : Nat) (m : Memory) : (Memory.drop a m).Sublist m := by
  induction m with
  | nil => exact List.Sublist.refl _
  | cons c rest ih =>
    obtain ⟨b, u⟩ := c
    by_cases h : b = a
    · simpa [Memory.drop, h] using ih.cons (b, u)
    · simpa [Memory.drop, h] using ih.cons_cons (b, u)

theorem Memory.wf_drop {m : Memory} (h : m.wf) (a : Nat) : Memory.wf (Memory.drop a m) :=
  ⟨h.1.sublist ((Memory.drop_sublist a m).map Prod.fst), fun c hc => h.2 c ((Memory.drop_sublist a m).subset hc)⟩

theorem Memory.mem_insert {m : Memory} {a : Nat} {w : Byte} {c : Host.Cell} (h : c ∈ Memory.insert a w m) :
    c = (a, w) ∨ c ∈ m := by
  induction m with
  | nil => simpa [Memory.insert] using h
  | cons d rest ih =>
    obtain ⟨b, u⟩ := d
    by_cases hl : a < b
    · simpa [Memory.insert, hl] using h
    · simp only [Memory.insert, hl, if_false, List.mem_cons] at h ⊢
      rcases h with h | h
      · exact .inr (.inl h)
      · exact (ih h).imp id .inr

theorem Memory.pairwise_insert {m : Memory} {a : Nat} {w : Byte} (h : (m.map Prod.fst).Pairwise (· < ·))
    (ha : ∀ c ∈ m, c.1 ≠ a) : ((Memory.insert a w m).map Prod.fst).Pairwise (· < ·) := by
  induction m with
  | nil => simp [Memory.insert]
  | cons d rest ih =>
    obtain ⟨b, u⟩ := d
    simp only [List.map_cons, List.pairwise_cons] at h
    have hb : b ≠ a := ha (b, u) (by simp)
    have hr : ∀ c ∈ rest, c.1 ≠ a := fun c hc => ha c (by simp [hc])
    by_cases hl : a < b
    · simp only [Memory.insert, hl, if_true, List.map_cons, List.pairwise_cons, List.mem_cons]
      refine ⟨?_, h.1, h.2⟩
      rintro x (rfl | hx)
      · exact hl
      · exact Nat.lt_trans hl (h.1 x hx)
    · simp only [Memory.insert, hl, if_false, List.map_cons, List.pairwise_cons]
      refine ⟨?_, ih h.2 hr⟩
      intro x hx
      obtain ⟨c, hc, rfl⟩ := List.mem_map.mp hx
      rcases Memory.mem_insert hc with rfl | hc
      · show b < a
        omega
      · exact h.1 _ (List.mem_map_of_mem hc)

theorem Memory.wf_write {m : Memory} (h : m.wf) (a : Nat) (w : Byte) : (m.write a w).wf := by
  unfold Memory.write
  split
  · split
    · exact Memory.wf_drop h a
    · refine ⟨Memory.pairwise_insert (Memory.wf_drop h a).1 (Memory.not_mem_drop m a), ?_⟩
      intro c hc
      rcases Memory.mem_insert hc with rfl | hc
      · exact ⟨‹_›, ‹_›⟩
      · exact (Memory.wf_drop h a).2 c hc
  · exact h

theorem Memory.wf_writeBytes {m : Memory} (h : m.wf) (a : Nat) (bs : List Byte) : (m.writeBytes a bs).wf := by
  induction bs generalizing m a with
  | nil => exact h
  | cons b bs ih => exact ih (Memory.wf_write h a b) (a + 1)

theorem Memory.wf_image (font rom : List Byte) : (Memory.image font rom).wf :=
  Memory.wf_writeBytes (Memory.wf_writeBytes Memory.wf_nil _ _) _ _

theorem State.reset_mem_wf : State.reset.mem.wf := Memory.wf_nil

/-- An address that no entry lists reads as the reset content. -/
theorem Memory.base_of_not_mem {m : Memory} {a : Nat} (h : ∀ c ∈ m, c.1 ≠ a) : m.read a = Memory.base a := by
  induction m with
  | nil => rfl
  | cons c rest ih =>
    have hc : c.1 ≠ a := h c (by simp)
    simpa [Memory.read, hc] using ih fun d hd => h d (by simp [hd])

end Sys2Proof.Machine
end

