-- ==== Sys2Proof/Laws/State.lean ====
section
/-! SUPPORT. What each update of the state does to each field: one lemma per field and update, true by rfl. -/

namespace Sys2Proof.Machine

variable (s : State)

/-! ### setV -/

@[simp] theorem State.setV_v (r : Reg) (b : Byte) : (s.setV r b).v = s.v.set r.val b r.isLt := rfl
@[simp] theorem State.setV_i (r : Reg) (b : Byte) : (s.setV r b).i = s.i := rfl
@[simp] theorem State.setV_pc (r : Reg) (b : Byte) : (s.setV r b).pc = s.pc := rfl
@[simp] theorem State.setV_sp (r : Reg) (b : Byte) : (s.setV r b).sp = s.sp := rfl
@[simp] theorem State.setV_stack (r : Reg) (b : Byte) : (s.setV r b).stack = s.stack := rfl
@[simp] theorem State.setV_dt (r : Reg) (b : Byte) : (s.setV r b).dt = s.dt := rfl
@[simp] theorem State.setV_st (r : Reg) (b : Byte) : (s.setV r b).st = s.st := rfl
@[simp] theorem State.setV_mem (r : Reg) (b : Byte) : (s.setV r b).mem = s.mem := rfl
@[simp] theorem State.setV_disp (r : Reg) (b : Byte) : (s.setV r b).disp = s.disp := rfl
@[simp] theorem State.setV_fault (r : Reg) (b : Byte) : (s.setV r b).fault = s.fault := rfl
@[simp] theorem State.setV_params (r : Reg) (b : Byte) : (s.setV r b).params = s.params := rfl
@[simp] theorem State.setV_inputs (r : Reg) (b : Byte) : (s.setV r b).inputs = s.inputs := rfl

/-! ### setI -/

@[simp] theorem State.setI_v (w : Word) : (s.setI w).v = s.v := rfl
@[simp] theorem State.setI_i (w : Word) : (s.setI w).i = w := rfl
@[simp] theorem State.setI_pc (w : Word) : (s.setI w).pc = s.pc := rfl
@[simp] theorem State.setI_sp (w : Word) : (s.setI w).sp = s.sp := rfl
@[simp] theorem State.setI_stack (w : Word) : (s.setI w).stack = s.stack := rfl
@[simp] theorem State.setI_dt (w : Word) : (s.setI w).dt = s.dt := rfl
@[simp] theorem State.setI_st (w : Word) : (s.setI w).st = s.st := rfl
@[simp] theorem State.setI_mem (w : Word) : (s.setI w).mem = s.mem := rfl
@[simp] theorem State.setI_disp (w : Word) : (s.setI w).disp = s.disp := rfl
@[simp] theorem State.setI_fault (w : Word) : (s.setI w).fault = s.fault := rfl
@[simp] theorem State.setI_params (w : Word) : (s.setI w).params = s.params := rfl
@[simp] theorem State.setI_inputs (w : Word) : (s.setI w).inputs = s.inputs := rfl
@[simp] theorem State.setI_getV (w : Word) (q : Reg) : (s.setI w).getV q = s.getV q := rfl

/-! ### setPc -/

@[simp] theorem State.setPc_v (w : Word) : (s.setPc w).v = s.v := rfl
@[simp] theorem State.setPc_i (w : Word) : (s.setPc w).i = s.i := rfl
@[simp] theorem State.setPc_pc (w : Word) : (s.setPc w).pc = w := rfl
@[simp] theorem State.setPc_sp (w : Word) : (s.setPc w).sp = s.sp := rfl
@[simp] theorem State.setPc_stack (w : Word) : (s.setPc w).stack = s.stack := rfl
@[simp] theorem State.setPc_dt (w : Word) : (s.setPc w).dt = s.dt := rfl
@[simp] theorem State.setPc_st (w : Word) : (s.setPc w).st = s.st := rfl
@[simp] theorem State.setPc_mem (w : Word) : (s.setPc w).mem = s.mem := rfl
@[simp] theorem State.setPc_disp (w : Word) : (s.setPc w).disp = s.disp := rfl
@[simp] theorem State.setPc_fault (w : Word) : (s.setPc w).fault = s.fault := rfl
@[simp] theorem State.setPc_params (w : Word) : (s.setPc w).params = s.params := rfl
@[simp] theorem State.setPc_inputs (w : Word) : (s.setPc w).inputs = s.inputs := rfl
@[simp] theorem State.setPc_getV (w : Word) (q : Reg) : (s.setPc w).getV q = s.getV q := rfl

/-! ### advance -/

@[simp] theorem State.advance_v : (s.advance).v = s.v := rfl
@[simp] theorem State.advance_i : (s.advance).i = s.i := rfl
@[simp] theorem State.advance_pc : (s.advance).pc = s.pc + 2 := rfl
@[simp] theorem State.advance_sp : (s.advance).sp = s.sp := rfl
@[simp] theorem State.advance_stack : (s.advance).stack = s.stack := rfl
@[simp] theorem State.advance_dt : (s.advance).dt = s.dt := rfl
@[simp] theorem State.advance_st : (s.advance).st = s.st := rfl
@[simp] theorem State.advance_mem : (s.advance).mem = s.mem := rfl
@[simp] theorem State.advance_disp : (s.advance).disp = s.disp := rfl
@[simp] theorem State.advance_fault : (s.advance).fault = s.fault := rfl
@[simp] theorem State.advance_params : (s.advance).params = s.params := rfl
@[simp] theorem State.advance_inputs : (s.advance).inputs = s.inputs := rfl
@[simp] theorem State.advance_getV (q : Reg) : (s.advance).getV q = s.getV q := rfl

/-! ### setDT -/

@[simp] theorem State.setDT_v (b : Byte) : (s.setDT b).v = s.v := rfl
@[simp] theorem State.setDT_i (b : Byte) : (s.setDT b).i = s.i := rfl
@[simp] theorem State.setDT_pc (b : Byte) : (s.setDT b).pc = s.pc := rfl
@[simp] theorem State.setDT_sp (b : Byte) : (s.setDT b).sp = s.sp := rfl
@[simp] theorem State.setDT_stack (b : Byte) : (s.setDT b).stack = s.stack := rfl
@[simp] theorem State.setDT_dt (b : Byte) : (s.setDT b).dt = b := rfl
@[simp] theorem State.setDT_st (b : Byte) : (s.setDT b).st = s.st := rfl
@[simp] theorem State.setDT_mem (b : Byte) : (s.setDT b).mem = s.mem := rfl
@[simp] theorem State.setDT_disp (b : Byte) : (s.setDT b).disp = s.disp := rfl
@[simp] theorem State.setDT_fault (b : Byte) : (s.setDT b).fault = s.fault := rfl
@[simp] theorem State.setDT_params (b : Byte) : (s.setDT b).params = s.params := rfl
@[simp] theorem State.setDT_inputs (b : Byte) : (s.setDT b).inputs = s.inputs := rfl
@[simp] theorem State.setDT_getV (b : Byte) (q : Reg) : (s.setDT b).getV q = s.getV q := rfl

/-! ### setST -/

@[simp] theorem State.setST_v (b : Byte) : (s.setST b).v = s.v := rfl
@[simp] theorem State.setST_i (b : Byte) : (s.setST b).i = s.i := rfl
@[simp] theorem State.setST_pc (b : Byte) : (s.setST b).pc = s.pc := rfl
@[simp] theorem State.setST_sp (b : Byte) : (s.setST b).sp = s.sp := rfl
@[simp] theorem State.setST_stack (b : Byte) : (s.setST b).stack = s.stack := rfl
@[simp] theorem State.setST_dt (b : Byte) : (s.setST b).dt = s.dt := rfl
@[simp] theorem State.setST_st (b : Byte) : (s.setST b).st = b := rfl
@[simp] theorem State.setST_mem (b : Byte) : (s.setST b).mem = s.mem := rfl
@[simp] theorem State.setST_disp (b : Byte) : (s.setST b).disp = s.disp := rfl
@[simp] theorem State.setST_fault (b : Byte) : (s.setST b).fault = s.fault := rfl
@[simp] theorem State.setST_params (b : Byte) : (s.setST b).params = s.params := rfl
@[simp] theorem State.setST_inputs (b : Byte) : (s.setST b).inputs = s.inputs := rfl
@[simp] theorem State.setST_getV (b : Byte) (q : Reg) : (s.setST b).getV q = s.getV q := rfl

/-! ### setMem -/

@[simp] theorem State.setMem_v (m : Memory) : (s.setMem m).v = s.v := rfl
@[simp] theorem State.setMem_i (m : Memory) : (s.setMem m).i = s.i := rfl
@[simp] theorem State.setMem_pc (m : Memory) : (s.setMem m).pc = s.pc := rfl
@[simp] theorem State.setMem_sp (m : Memory) : (s.setMem m).sp = s.sp := rfl
@[simp] theorem State.setMem_stack (m : Memory) : (s.setMem m).stack = s.stack := rfl
@[simp] theorem State.setMem_dt (m : Memory) : (s.setMem m).dt = s.dt := rfl
@[simp] theorem State.setMem_st (m : Memory) : (s.setMem m).st = s.st := rfl
@[simp] theorem State.setMem_mem (m : Memory) : (s.setMem m).mem = m := rfl
@[simp] theorem State.setMem_disp (m : Memory) : (s.setMem m).disp = s.disp := rfl
@[simp] theorem State.setMem_fault (m : Memory) : (s.setMem m).fault = s.fault := rfl
@[simp] theorem State.setMem_params (m : Memory) : (s.setMem m).params = s.params := rfl
@[simp] theorem State.setMem_inputs (m : Memory) : (s.setMem m).inputs = s.inputs := rfl
@[simp] theorem State.setMem_getV (m : Memory) (q : Reg) : (s.setMem m).getV q = s.getV q := rfl

/-! ### setDisp -/

@[simp] theorem State.setDisp_v (d : Display) : (s.setDisp d).v = s.v := rfl
@[simp] theorem State.setDisp_i (d : Display) : (s.setDisp d).i = s.i := rfl
@[simp] theorem State.setDisp_pc (d : Display) : (s.setDisp d).pc = s.pc := rfl
@[simp] theorem State.setDisp_sp (d : Display) : (s.setDisp d).sp = s.sp := rfl
@[simp] theorem State.setDisp_stack (d : Display) : (s.setDisp d).stack = s.stack := rfl
@[simp] theorem State.setDisp_dt (d : Display) : (s.setDisp d).dt = s.dt := rfl
@[simp] theorem State.setDisp_st (d : Display) : (s.setDisp d).st = s.st := rfl
@[simp] theorem State.setDisp_mem (d : Display) : (s.setDisp d).mem = s.mem := rfl
@[simp] theorem State.setDisp_disp (d : Display) : (s.setDisp d).disp = d := rfl
@[simp] theorem State.setDisp_fault (d : Display) : (s.setDisp d).fault = s.fault := rfl
@[simp] theorem State.setDisp_params (d : Display) : (s.setDisp d).params = s.params := rfl
@[simp] theorem State.setDisp_inputs (d : Display) : (s.setDisp d).inputs = s.inputs := rfl
@[simp] theorem State.setDisp_getV (d : Display) (q : Reg) : (s.setDisp d).getV q = s.getV q := rfl

/-! ### tick -/

@[simp] theorem State.tick_v : (s.tick).v = s.v := rfl
@[simp] theorem State.tick_i : (s.tick).i = s.i := rfl
@[simp] theorem State.tick_pc : (s.tick).pc = s.pc := rfl
@[simp] theorem State.tick_sp : (s.tick).sp = s.sp := rfl
@[simp] theorem State.tick_stack : (s.tick).stack = s.stack := rfl
@[simp] theorem State.tick_dt : (s.tick).dt = countDown s.dt := rfl
@[simp] theorem State.tick_st : (s.tick).st = countDown s.st := rfl
@[simp] theorem State.tick_mem : (s.tick).mem = s.mem := rfl
@[simp] theorem State.tick_disp : (s.tick).disp = s.disp := rfl
@[simp] theorem State.tick_fault : (s.tick).fault = s.fault := rfl
@[simp] theorem State.tick_params : (s.tick).params = s.params := rfl
@[simp] theorem State.tick_inputs : (s.tick).inputs = s.inputs := rfl
@[simp] theorem State.tick_getV (q : Reg) : (s.tick).getV q = s.getV q := rfl

/-! ### tookKeys -/

@[simp] theorem State.tookKeys_v : (s.tookKeys).v = s.v := rfl
@[simp] theorem State.tookKeys_i : (s.tookKeys).i = s.i := rfl
@[simp] theorem State.tookKeys_pc : (s.tookKeys).pc = s.pc := rfl
@[simp] theorem State.tookKeys_sp : (s.tookKeys).sp = s.sp := rfl
@[simp] theorem State.tookKeys_stack : (s.tookKeys).stack = s.stack := rfl
@[simp] theorem State.tookKeys_dt : (s.tookKeys).dt = s.dt := rfl
@[simp] theorem State.tookKeys_st : (s.tookKeys).st = s.st := rfl
@[simp] theorem State.tookKeys_mem : (s.tookKeys).mem = s.mem := rfl
@[simp] theorem State.tookKeys_disp : (s.tookKeys).disp = s.disp := rfl
@[simp] theorem State.tookKeys_fault : (s.tookKeys).fault = s.fault := rfl
@[simp] theorem State.tookKeys_params : (s.tookKeys).params = s.params := rfl
@[simp] theorem State.tookKeys_inputs : (s.tookKeys).inputs = { s.inputs with keys := s.inputs.keys.tail, drawn := s.inputs.drawn + 1 } := rfl
@[simp] theorem State.tookKeys_getV (q : Reg) : (s.tookKeys).getV q = s.getV q := rfl

/-! ### tookRnd -/

@[simp] theorem State.tookRnd_v : (s.tookRnd).v = s.v := rfl
@[simp] theorem State.tookRnd_i : (s.tookRnd).i = s.i := rfl
@[simp] theorem State.tookRnd_pc : (s.tookRnd).pc = s.pc := rfl
@[simp] theorem State.tookRnd_sp : (s.tookRnd).sp = s.sp := rfl
@[simp] theorem State.tookRnd_stack : (s.tookRnd).stack = s.stack := rfl
@[simp] theorem State.tookRnd_dt : (s.tookRnd).dt = s.dt := rfl
@[simp] theorem State.tookRnd_st : (s.tookRnd).st = s.st := rfl
@[simp] theorem State.tookRnd_mem : (s.tookRnd).mem = s.mem := rfl
@[simp] theorem State.tookRnd_disp : (s.tookRnd).disp = s.disp := rfl
@[simp] theorem State.tookRnd_fault : (s.tookRnd).fault = s.fault := rfl
@[simp] theorem State.tookRnd_params : (s.tookRnd).params = s.params := rfl
@[simp] theorem State.tookRnd_inputs : (s.tookRnd).inputs = { s.inputs with rnd := s.inputs.rnd.tail, drawn := s.inputs.drawn + 1 } := rfl
@[simp] theorem State.tookRnd_getV (q : Reg) : (s.tookRnd).getV q = s.getV q := rfl

/-! ### tookEvent -/

@[simp] theorem State.tookEvent_v : (s.tookEvent).v = s.v := rfl
@[simp] theorem State.tookEvent_i : (s.tookEvent).i = s.i := rfl
@[simp] theorem State.tookEvent_pc : (s.tookEvent).pc = s.pc := rfl
@[simp] theorem State.tookEvent_sp : (s.tookEvent).sp = s.sp := rfl
@[simp] theorem State.tookEvent_stack : (s.tookEvent).stack = s.stack := rfl
@[simp] theorem State.tookEvent_dt : (s.tookEvent).dt = s.dt := rfl
@[simp] theorem State.tookEvent_st : (s.tookEvent).st = s.st := rfl
@[simp] theorem State.tookEvent_mem : (s.tookEvent).mem = s.mem := rfl
@[simp] theorem State.tookEvent_disp : (s.tookEvent).disp = s.disp := rfl
@[simp] theorem State.tookEvent_fault : (s.tookEvent).fault = s.fault := rfl
@[simp] theorem State.tookEvent_params : (s.tookEvent).params = s.params := rfl
@[simp] theorem State.tookEvent_inputs : (s.tookEvent).inputs = { s.inputs with ticks := s.inputs.ticks.tail, drawn := s.inputs.drawn + 1 } := rfl
@[simp] theorem State.tookEvent_getV (q : Reg) : (s.tookEvent).getV q = s.getV q := rfl

/-! ### latch -/

@[simp] theorem State.latch_v (k : FailureKind) (o : Option Word) (a : Option Nat) : (s.latch k o a).v = s.v := rfl
@[simp] theorem State.latch_i (k : FailureKind) (o : Option Word) (a : Option Nat) : (s.latch k o a).i = s.i := rfl
@[simp] theorem State.latch_pc (k : FailureKind) (o : Option Word) (a : Option Nat) : (s.latch k o a).pc = s.pc := rfl
@[simp] theorem State.latch_sp (k : FailureKind) (o : Option Word) (a : Option Nat) : (s.latch k o a).sp = s.sp := rfl
@[simp] theorem State.latch_stack (k : FailureKind) (o : Option Word) (a : Option Nat) : (s.latch k o a).stack = s.stack := rfl
@[simp] theorem State.latch_dt (k : FailureKind) (o : Option Word) (a : Option Nat) : (s.latch k o a).dt = s.dt := rfl
@[simp] theorem State.latch_st (k : FailureKind) (o : Option Word) (a : Option Nat) : (s.latch k o a).st = s.st := rfl
@[simp] theorem State.latch_mem (k : FailureKind) (o : Option Word) (a : Option Nat) : (s.latch k o a).mem = s.mem := rfl
@[simp] theorem State.latch_disp (k : FailureKind) (o : Option Word) (a : Option Nat) : (s.latch k o a).disp = s.disp := rfl
@[simp] theorem State.latch_fault (k : FailureKind) (o : Option Word) (a : Option Nat) : (s.latch k o a).fault = some { kind := k, op := o, pc := s.pc, addr := a } := rfl
@[simp] theorem State.latch_params (k : FailureKind) (o : Option Word) (a : Option Nat) : (s.latch k o a).params = s.params := rfl
@[simp] theorem State.latch_inputs (k : FailureKind) (o : Option Word) (a : Option Nat) : (s.latch k o a).inputs = s.inputs := rfl
@[simp] theorem State.latch_getV (k : FailureKind) (o : Option Word) (a : Option Nat) (q : Reg) : (s.latch k o a).getV q = s.getV q := rfl

/-! ### skipIf -/

@[simp] theorem State.skipIf_true : s.skipIf true = s.setPc (s.pc + 2) := rfl
@[simp] theorem State.skipIf_false : s.skipIf false = s := rfl
theorem State.skipIf_pc (c : Bool) : (s.skipIf c).pc = if c then s.pc + 2 else s.pc := by cases c <;> rfl
@[simp] theorem State.skipIf_v (c : Bool) : (s.skipIf c).v = s.v := by cases c <;> rfl
@[simp] theorem State.skipIf_i (c : Bool) : (s.skipIf c).i = s.i := by cases c <;> rfl
@[simp] theorem State.skipIf_sp (c : Bool) : (s.skipIf c).sp = s.sp := by cases c <;> rfl
@[simp] theorem State.skipIf_stack (c : Bool) : (s.skipIf c).stack = s.stack := by cases c <;> rfl
@[simp] theorem State.skipIf_dt (c : Bool) : (s.skipIf c).dt = s.dt := by cases c <;> rfl
@[simp] theorem State.skipIf_st (c : Bool) : (s.skipIf c).st = s.st := by cases c <;> rfl
@[simp] theorem State.skipIf_mem (c : Bool) : (s.skipIf c).mem = s.mem := by cases c <;> rfl
@[simp] theorem State.skipIf_disp (c : Bool) : (s.skipIf c).disp = s.disp := by cases c <;> rfl
@[simp] theorem State.skipIf_fault (c : Bool) : (s.skipIf c).fault = s.fault := by cases c <;> rfl
@[simp] theorem State.skipIf_params (c : Bool) : (s.skipIf c).params = s.params := by cases c <;> rfl
@[simp] theorem State.skipIf_inputs (c : Bool) : (s.skipIf c).inputs = s.inputs := by cases c <;> rfl
@[simp] theorem State.skipIf_getV (c : Bool) (q : Reg) : (s.skipIf c).getV q = s.getV q := by cases c <;> rfl

/-! ### Reading a register after a write -/

@[simp] theorem State.setVF_eq (b : Byte) : s.setVF b = s.setV flagReg b := rfl

theorem State.getV_setV (r q : Reg) (b : Byte) : (s.setV r b).getV q = if q = r then b else s.getV q := by
  by_cases h : q = r
  · subst h
    simp [State.getV, State.setV, Vector.get_eq_getElem]
  · have h' : ¬ r.val = q.val := fun e => h (Fin.ext e.symm)
    simp [State.getV, State.setV, Vector.get_eq_getElem, h, h']

@[simp] theorem State.getV_setV_same (r : Reg) (b : Byte) : (s.setV r b).getV r = b := by simp [State.getV_setV]

theorem State.getV_setV_ne (r q : Reg) (b : Byte) (h : q ≠ r) : (s.setV r b).getV q = s.getV q := by
  simp [State.getV_setV, h]

/-! ### A run of register writes -/

@[simp] theorem State.setRegs_i (k : Nat) (bs : List Byte) : (s.setRegs k bs).i = s.i := by
  induction bs generalizing s k with
  | nil => rfl
  | cons b bs ih => rw [State.setRegs, ih]; split <;> rfl
@[simp] theorem State.setRegs_pc (k : Nat) (bs : List Byte) : (s.setRegs k bs).pc = s.pc := by
  induction bs generalizing s k with
  | nil => rfl
  | cons b bs ih => rw [State.setRegs, ih]; split <;> rfl
@[simp] theorem State.setRegs_sp (k : Nat) (bs : List Byte) : (s.setRegs k bs).sp = s.sp := by
  induction bs generalizing s k with
  | nil => rfl
  | cons b bs ih => rw [State.setRegs, ih]; split <;> rfl
@[simp] theorem State.setRegs_stack (k : Nat) (bs : List Byte) : (s.setRegs k bs).stack = s.stack := by
  induction bs generalizing s k with
  | nil => rfl
  | cons b bs ih => rw [State.setRegs, ih]; split <;> rfl
@[simp] theorem State.setRegs_dt (k : Nat) (bs : List Byte) : (s.setRegs k bs).dt = s.dt := by
  induction bs generalizing s k with
  | nil => rfl
  | cons b bs ih => rw [State.setRegs, ih]; split <;> rfl
@[simp] theorem State.setRegs_st (k : Nat) (bs : List Byte) : (s.setRegs k bs).st = s.st := by
  induction bs generalizing s k with
  | nil => rfl
  | cons b bs ih => rw [State.setRegs, ih]; split <;> rfl
@[simp] theorem State.setRegs_mem (k : Nat) (bs : List Byte) : (s.setRegs k bs).mem = s.mem := by
  induction bs generalizing s k with
  | nil => rfl
  | cons b bs ih => rw [State.setRegs, ih]; split <;> rfl
@[simp] theorem State.setRegs_disp (k : Nat) (bs : List Byte) : (s.setRegs k bs).disp = s.disp := by
  induction bs generalizing s k with
  | nil => rfl
  | cons b bs ih => rw [State.setRegs, ih]; split <;> rfl
@[simp] theorem State.setRegs_fault (k : Nat) (bs : List Byte) : (s.setRegs k bs).fault = s.fault := by
  induction bs generalizing s k with
  | nil => rfl
  | cons b bs ih => rw [State.setRegs, ih]; split <;> rfl
@[simp] theorem State.setRegs_params (k : Nat) (bs : List Byte) : (s.setRegs k bs).params = s.params := by
  induction bs generalizing s k with
  | nil => rfl
  | cons b bs ih => rw [State.setRegs, ih]; split <;> rfl
@[simp] theorem State.setRegs_inputs (k : Nat) (bs : List Byte) : (s.setRegs k bs).inputs = s.inputs := by
  induction bs generalizing s k with
  | nil => rfl
  | cons b bs ih => rw [State.setRegs, ih]; split <;> rfl

/-- The registers after a run of writes from register `k` upward. -/
theorem State.getV_setRegs (k : Nat) (bs : List Byte) (q : Reg) :
    (s.setRegs k bs).getV q = if k ≤ q.val then bs.getD (q.val - k) (s.getV q) else s.getV q := by
  induction bs generalizing s k with
  | nil => simp [State.setRegs]
  | cons b bs ih =>
    rw [State.setRegs, ih]
    by_cases hk : k < 16
    · rcases Nat.lt_trichotomy k q.val with h | h | h
      · have hne : q ≠ ⟨k, hk⟩ := fun e => by simp [e] at h
        have e : q.val - k = q.val - (k + 1) + 1 := by omega
        simp [hk, State.getV_setV, hne, show k + 1 ≤ q.val by omega, show k ≤ q.val by omega, e]
      · have he : q = ⟨k, hk⟩ := Fin.ext h.symm
        simp [he, hk]
      · have hne : q ≠ ⟨k, hk⟩ := fun e => by simp [e] at h
        simp [hk, State.getV_setV, hne, show ¬ k + 1 ≤ q.val by omega, show ¬ k ≤ q.val by omega]
    · have := q.isLt
      simp [hk, show ¬ k + 1 ≤ q.val by omega, show ¬ k ≤ q.val by omega]

/-! ### The call stack -/

/-- A push answers a state exactly when the stack is not full, and what that state is. -/
theorem State.push_eq_some {s t : State} {w : Word} (h : s.push w = some t) :
    ∃ lt : s.sp.val < 16, t = { s with stack := s.stack.set s.sp.val w lt, sp := ⟨s.sp.val + 1, by omega⟩ } := by
  unfold State.push at h
  split at h
  · exact ⟨‹_›, (Option.some.inj h).symm⟩
  · cases h

theorem State.push_eq_none {s : State} {w : Word} : s.push w = none ↔ s.sp.val = 16 := by
  unfold State.push
  have := s.sp.isLt
  split <;> simp <;> omega

/-- A pop answers exactly when the stack is not empty, and what it answers. -/
theorem State.pop_eq_some {s t : State} {w : Word} (h : s.pop = some (w, t)) :
    ∃ _ne : s.sp.val ≠ 0, w = s.stack[s.sp.val - 1]'(by have := s.sp.isLt; omega) ∧
      t = { s with sp := ⟨s.sp.val - 1, by have := s.sp.isLt; omega⟩ } := by
  unfold State.pop at h
  split at h
  · cases h
  · simp only [Option.some.injEq, Prod.mk.injEq] at h
    exact ⟨‹_›, h.1.symm, h.2.symm⟩

theorem State.pop_eq_none {s : State} : s.pop = none ↔ s.sp.val = 0 := by
  unfold State.pop
  split <;> simp_all

/-! ### Bounds of a data access -/

/-- No fault: all `n` bytes from `I` on are in memory, or there is none. -/
theorem State.rangeFault_eq_none {s : State} {n : Nat} : s.rangeFault n = none ↔ n = 0 ∨ s.i.toNat + n ≤ 4096 := by
  unfold State.rangeFault State.ea memSize
  split <;> simp <;> omega

/-- A fault: the recorded address is `max(I, 4096)`. -/
theorem State.rangeFault_eq_some {s : State} {n a : Nat} :
    s.rangeFault n = some a ↔ n ≠ 0 ∧ 4096 < s.i.toNat + n ∧ a = max s.i.toNat 4096 := by
  unfold State.rangeFault State.ea memSize
  split <;> simp <;> omega

end Sys2Proof.Machine
end

