-- ==== Sys2Proof/Laws/Machine.lean ====
section
/-! SUPPORT. The cycle and the events: what each can answer, said once. -/

namespace Sys2Proof.Machine

/-! ### The timer count -/

theorem countDown_toNat (b : Byte) : (countDown b).toNat = b.toNat - 1 := by
  unfold countDown
  split
  · simp_all
  · rename_i h
    have : b.toNat ≠ 0 := fun e => h (BitVec.eq_of_toNat_eq (by simpa using e))
    have := b.isLt
    rw [BitVec.toNat_sub]
    simp
    omega

/-! ### Keys -/

theorem lowestKey_spec (keys : Word) (h : keys ≠ 0) :
    keyDown keys (lowestKey keys).val = true ∧ ∀ k : Nat, k < (lowestKey keys).val → keyDown keys k = false := by
  unfold lowestKey
  cases hf : (List.finRange 16).find? fun k : Fin 16 => keyDown keys k.val with
  | none =>
    exfalso
    apply h
    ext j hj
    have := List.find?_eq_none.mp hf ⟨j, hj⟩ (List.mem_finRange _)
    simpa [keyDown, BitVec.getLsbD_eq_getElem, hj] using this
  | some a =>
    obtain ⟨ha, i, hi, hia, hlt⟩ := List.find?_eq_some_iff_getElem.mp hf
    refine ⟨by simpa using ha, fun k hk => ?_⟩
    have hv : a.val = i := by rw [← hia]; simp
    have hk' : k < i := by simpa [hv] using hk
    simpa using hlt k hk'

/-- A picked key is pressed, under every choice. -/
theorem pickKey_pressed (p : KeyPick) (keys : Word) (h : keys ≠ 0) : keyDown keys (pickKey p keys).val = true := by
  unfold pickKey
  cases p with
  | lowest => exact (lowestKey_spec keys h).1
  | free =>
    show keyDown keys (if keyDown keys (Config.keyPick keys).val then _ else _ : Fin 16).val = true
    split
    · assumption
    · exact (lowestKey_spec keys h).1

/-! ### Fetch -/

theorem fetchFault_eq_none {pc : Word} : fetchFault pc = none ↔ pc.toNat ≤ 4094 := by
  unfold fetchFault memSize
  split
  · simp; omega
  · split <;> simp <;> omega

theorem fetchFault_eq_some {pc : Word} {a : Nat} : fetchFault pc = some a ↔ 4094 < pc.toNat ∧ a = max pc.toNat 4096 := by
  unfold fetchFault memSize
  split
  · simp; omega
  · split <;> simp <;> omega

/-- A fetch answers a word exactly when PC is at most 4094, and the word is the big-endian pair there. -/
theorem State.fetch_eq_ok {s : State} {op : Word} :
    s.fetch = .ok op ↔ s.pc.toNat ≤ 4094 ∧ op = wordOfBytes (s.mem.read s.pc.toNat) (s.mem.read (s.pc.toNat + 1)) := by
  unfold State.fetch
  cases h : fetchFault s.pc with
  | none => simp [fetchFault_eq_none.mp h, eq_comm]
  | some a =>
    have := (fetchFault_eq_some.mp h).1
    simp; omega

theorem State.fetch_eq_error {s : State} {a : Nat} :
    s.fetch = .error a ↔ 4094 < s.pc.toNat ∧ a = max s.pc.toNat 4096 := by
  unfold State.fetch
  cases h : fetchFault s.pc with
  | none =>
    have := fetchFault_eq_none.mp h
    simp; omega
  | some b =>
    have := fetchFault_eq_some.mp h
    simp [this, eq_comm]

/-! ### Events -/

theorem stepEvent_halted {s : State} (h : s.Halted) : stepEvent s = .next s := by
  unfold stepEvent
  rw [if_pos h]

theorem stepEvent_running {s : State} (h : s.fault = none) : stepEvent s = cycle s := by
  unfold stepEvent
  simp [h]

/-- What one cycle can answer: a fetch failure, an unknown opcode, or the decoded instruction's answer with the tick after it. -/
theorem cycle_cases (s : State) :
    (∃ a, s.fetch = .error a ∧ cycle s = .next (s.latch .outOfBounds none (some a))) ∨
    (∃ op, s.fetch = .ok op ∧ decode op = none ∧ cycle s = .next (s.latch .unknownOpcode (some op) none)) ∨
    (∃ op i, s.fetch = .ok op ∧ decode op = some i ∧ cycle s =
      match exec i s with
      | .next t => .next t.endCycle
      | .fault f => .fault f
      | .refused r => .refused r) := by
  unfold cycle
  cases hf : s.fetch with
  | error a => exact .inl ⟨a, rfl, rfl⟩
  | ok op =>
    cases hd : decode op with
    | none =>
      refine .inr (.inl ⟨op, rfl, hd, ?_⟩)
      simp only [runWord, hd]
      rfl
    | some i =>
      refine .inr (.inr ⟨op, i, rfl, hd, ?_⟩)
      cases he : exec i s <;> simp only [runWord, hd, he]

/-- What one step can be: nothing in a halted core; a cycle; in external mode a tick, or a cycle after the event was taken. -/
theorem step_cases (s : State) :
    (s.Halted ∧ step s = .next s) ∨
    (s.fault = none ∧ s.params.timerMode = .coupled ∧ step s = cycle s) ∨
    (s.fault = none ∧ s.params.timerMode = .external ∧ s.nextIsTick = true ∧ step s = .next s.tookEvent.tick) ∨
    (s.fault = none ∧ s.params.timerMode = .external ∧ s.nextIsTick = false ∧ step s = cycle s.tookEvent) := by
  unfold step nextEvent
  cases hm : s.params.timerMode with
  | coupled =>
    cases hf : s.fault with
    | none => exact .inr (.inl ⟨rfl, rfl, stepEvent_running hf⟩)
    | some f => exact .inl ⟨by simp [State.Halted, hf], stepEvent_halted (by simp [State.Halted, hf])⟩
  | external =>
    cases hf : s.fault with
    | some f => exact .inl ⟨by simp [State.Halted, hf], by simp⟩
    | none =>
      cases ht : s.nextIsTick with
      | true => exact .inr (.inr (.inl ⟨rfl, rfl, rfl, by simp [tickEvent, hf, hm]⟩))
      | false =>
        refine .inr (.inr (.inr ⟨rfl, rfl, rfl, ?_⟩))
        simp only [Option.isSome_none, Bool.false_eq_true, if_false]
        exact stepEvent_running (by simp [hf])

end Sys2Proof.Machine
end

