-- ==== Sys2Proof/Laws/PerInstr.lean ====
section
/-! SUPPORT. Per instruction: the word of each instruction matches its row of spec/30_encoding.md R66. -/

namespace Sys2Proof

/-! ### The masks of R66 as numbers -/

theorem toNat_and_F000 (w : Word) : (w &&& 0xF000#16).toNat = w.toNat / 4096 * 4096 := by
  have h : w &&& 0xF000#16 = (w >>> 12) <<< 12 := by
    ext j hj
    interval_cases j <;> simp [BitVec.getElem_shiftLeft, BitVec.getElem_ushiftRight]
  have := w.isLt
  rw [h]
  simp only [BitVec.toNat_shiftLeft, BitVec.toNat_ushiftRight, Nat.shiftRight_eq_div_pow, Nat.shiftLeft_eq]
  omega

theorem toNat_top_nibble (w : Word) : ((w >>> 12) <<< 12).toNat = (w.toNat / 4096) <<< 12 := by
  have := w.isLt
  simp only [BitVec.toNat_shiftLeft, BitVec.toNat_ushiftRight, Nat.shiftRight_eq_div_pow, Nat.shiftLeft_eq]
  omega

theorem toNat_and_F00F (w : Word) : (w &&& 0xF00F#16).toNat = w.toNat / 4096 * 4096 + w.toNat % 16 := by
  have h : w &&& 0xF00F#16 = ((w >>> 12) <<< 12) ||| (w &&& 0x000F#16) := by
    ext j hj
    interval_cases j <;> simp [BitVec.getElem_shiftLeft, BitVec.getElem_ushiftRight]
  have e : (w &&& 0x000F#16).toNat = w.toNat % 16 := by
    rw [BitVec.toNat_and]
    exact Nat.and_two_pow_sub_one_eq_mod w.toNat 4
  rw [h, BitVec.toNat_or, e, toNat_top_nibble, ← Nat.shiftLeft_add_eq_or_of_lt (by omega), Nat.shiftLeft_eq]

theorem toNat_and_F0FF (w : Word) : (w &&& 0xF0FF#16).toNat = w.toNat / 4096 * 4096 + w.toNat % 256 := by
  have h : w &&& 0xF0FF#16 = ((w >>> 12) <<< 12) ||| (w &&& 0x00FF#16) := by
    ext j hj
    interval_cases j <;> simp [BitVec.getElem_shiftLeft, BitVec.getElem_ushiftRight]
  have e : (w &&& 0x00FF#16).toNat = w.toNat % 256 := by
    rw [BitVec.toNat_and]
    exact Nat.and_two_pow_sub_one_eq_mod w.toNat 8
  rw [h, BitVec.toNat_or, e, toNat_top_nibble, ← Nat.shiftLeft_add_eq_or_of_lt (by omega), Nat.shiftLeft_eq]

/-! ### The masked words of the formats -/

theorem fmtNNN_and (g : BitVec 4) (nnn : BitVec 12) : (fmtNNN g nnn &&& 0xF000#16).toNat = g.toNat * 4096 := by
  rw [toNat_and_F000, toNat_fmtNNN]
  have := nnn.isLt
  omega

theorem fmtXKK_and (g : BitVec 4) (x : Reg) (kk : Byte) : (fmtXKK g x kk &&& 0xF000#16).toNat = g.toNat * 4096 := by
  rw [toNat_and_F000, toNat_fmtXKK]
  have := x.isLt
  have := kk.isLt
  omega

theorem fmtXYN_and (g : BitVec 4) (x y : Reg) (n : BitVec 4) : (fmtXYN g x y n &&& 0xF000#16).toNat = g.toNat * 4096 := by
  rw [toNat_and_F000, toNat_fmtXYN]
  have := x.isLt
  have := y.isLt
  have := n.isLt
  omega

theorem fmtXY_and (g : BitVec 4) (x y : Reg) (n : BitVec 4) :
    (fmtXYN g x y n &&& 0xF00F#16).toNat = g.toNat * 4096 + n.toNat := by
  rw [toNat_and_F00F, toNat_fmtXYN]
  have := x.isLt
  have := y.isLt
  have := n.isLt
  omega

theorem fmtXS_and (g : BitVec 4) (x : Reg) (sel : Byte) :
    (fmtXS g x sel &&& 0xF0FF#16).toNat = g.toNat * 4096 + sel.toNat := by
  rw [fmtXS_eq, toNat_and_F0FF, toNat_fmtXKK]
  have := x.isLt
  have := sel.isLt
  omega

/-- The word of an instruction, under its row's mask, is its row's `match`. -/
def Laws.MatchesRow.Statement (i : Instr) : Prop := encode i &&& (opcodeRow i).mask = (opcodeRow i).bits

open Laws.MatchesRow (Statement)

theorem Laws.MatchesRow.cls : Statement .cls := by unfold Statement; decide
theorem Laws.MatchesRow.ret : Statement .ret := by unfold Statement; decide
theorem Laws.MatchesRow.jp (nnn : BitVec 12) : Statement (.jp nnn) := BitVec.eq_of_toNat_eq (fmtNNN_and _ nnn)
theorem Laws.MatchesRow.call (nnn : BitVec 12) : Statement (.call nnn) := BitVec.eq_of_toNat_eq (fmtNNN_and _ nnn)
theorem Laws.MatchesRow.seImm (x : Reg) (kk : Byte) : Statement (.seImm x kk) := BitVec.eq_of_toNat_eq (fmtXKK_and _ x kk)
theorem Laws.MatchesRow.sneImm (x : Reg) (kk : Byte) : Statement (.sneImm x kk) := BitVec.eq_of_toNat_eq (fmtXKK_and _ x kk)
theorem Laws.MatchesRow.seReg (x y : Reg) : Statement (.seReg x y) := BitVec.eq_of_toNat_eq (fmtXY_and _ x y _)
theorem Laws.MatchesRow.ldImm (x : Reg) (kk : Byte) : Statement (.ldImm x kk) := BitVec.eq_of_toNat_eq (fmtXKK_and _ x kk)
theorem Laws.MatchesRow.addImm (x : Reg) (kk : Byte) : Statement (.addImm x kk) := BitVec.eq_of_toNat_eq (fmtXKK_and _ x kk)
theorem Laws.MatchesRow.ldReg (x y : Reg) : Statement (.ldReg x y) := BitVec.eq_of_toNat_eq (fmtXY_and _ x y _)
theorem Laws.MatchesRow.orReg (x y : Reg) : Statement (.orReg x y) := BitVec.eq_of_toNat_eq (fmtXY_and _ x y _)
theorem Laws.MatchesRow.andReg (x y : Reg) : Statement (.andReg x y) := BitVec.eq_of_toNat_eq (fmtXY_and _ x y _)
theorem Laws.MatchesRow.xorReg (x y : Reg) : Statement (.xorReg x y) := BitVec.eq_of_toNat_eq (fmtXY_and _ x y _)
theorem Laws.MatchesRow.addReg (x y : Reg) : Statement (.addReg x y) := BitVec.eq_of_toNat_eq (fmtXY_and _ x y _)
theorem Laws.MatchesRow.sub (x y : Reg) : Statement (.sub x y) := BitVec.eq_of_toNat_eq (fmtXY_and _ x y _)
theorem Laws.MatchesRow.shr (x y : Reg) : Statement (.shr x y) := BitVec.eq_of_toNat_eq (fmtXY_and _ x y _)
theorem Laws.MatchesRow.subn (x y : Reg) : Statement (.subn x y) := BitVec.eq_of_toNat_eq (fmtXY_and _ x y _)
theorem Laws.MatchesRow.shl (x y : Reg) : Statement (.shl x y) := BitVec.eq_of_toNat_eq (fmtXY_and _ x y _)
theorem Laws.MatchesRow.sneReg (x y : Reg) : Statement (.sneReg x y) := BitVec.eq_of_toNat_eq (fmtXY_and _ x y _)
theorem Laws.MatchesRow.ldI (nnn : BitVec 12) : Statement (.ldI nnn) := BitVec.eq_of_toNat_eq (fmtNNN_and _ nnn)
theorem Laws.MatchesRow.jpV0 (nnn : BitVec 12) : Statement (.jpV0 nnn) := BitVec.eq_of_toNat_eq (fmtNNN_and _ nnn)
theorem Laws.MatchesRow.rnd (x : Reg) (kk : Byte) : Statement (.rnd x kk) := BitVec.eq_of_toNat_eq (fmtXKK_and _ x kk)
theorem Laws.MatchesRow.drw (x y : Reg) (n : BitVec 4) : Statement (.drw x y n) := BitVec.eq_of_toNat_eq (fmtXYN_and _ x y n)
theorem Laws.MatchesRow.skp (x : Reg) : Statement (.skp x) := BitVec.eq_of_toNat_eq (fmtXS_and _ x _)
theorem Laws.MatchesRow.sknp (x : Reg) : Statement (.sknp x) := BitVec.eq_of_toNat_eq (fmtXS_and _ x _)
theorem Laws.MatchesRow.ldVxDT (x : Reg) : Statement (.ldVxDT x) := BitVec.eq_of_toNat_eq (fmtXS_and _ x _)
theorem Laws.MatchesRow.ldVxK (x : Reg) : Statement (.ldVxK x) := BitVec.eq_of_toNat_eq (fmtXS_and _ x _)
theorem Laws.MatchesRow.ldDTVx (x : Reg) : Statement (.ldDTVx x) := BitVec.eq_of_toNat_eq (fmtXS_and _ x _)
theorem Laws.MatchesRow.ldSTVx (x : Reg) : Statement (.ldSTVx x) := BitVec.eq_of_toNat_eq (fmtXS_and _ x _)
theorem Laws.MatchesRow.addI (x : Reg) : Statement (.addI x) := BitVec.eq_of_toNat_eq (fmtXS_and _ x _)
theorem Laws.MatchesRow.ldF (x : Reg) : Statement (.ldF x) := BitVec.eq_of_toNat_eq (fmtXS_and _ x _)
theorem Laws.MatchesRow.ldB (x : Reg) : Statement (.ldB x) := BitVec.eq_of_toNat_eq (fmtXS_and _ x _)
theorem Laws.MatchesRow.storeRegs (x : Reg) : Statement (.storeRegs x) := BitVec.eq_of_toNat_eq (fmtXS_and _ x _)
theorem Laws.MatchesRow.loadRegs (x : Reg) : Statement (.loadRegs x) := BitVec.eq_of_toNat_eq (fmtXS_and _ x _)

end Sys2Proof
end

