-- ==== Sys2Proof/Tests/Slice0.lean ====
section
/-! SUPPORT. Tests: the well-formedness checks, one word of every instruction, one or two behaviours of each from
spec/95_test_vectors.md, and for every statement with hypotheses concrete data that meet them. -/

namespace Sys2Proof.Tests
open Sys2Proof Sys2Proof.Machine

/-! ## Helpers -/

/-- The state after reset and `pre`, with the word `w` placed at its PC. -/
def placed (w : Nat) (pre : State → State) : State := (pre State.reset).withFetchWord 16 w

/-- The next state of an outcome. -/
def nextOf (o : Outcome) : Option State :=
  match o with
  | .next t => some t
  | .fault _ => none
  | .refused _ => none

/-- One step of a placed word. -/
def run (w : Nat) (pre : State → State) : Option State := nextOf (step (placed w pre))

/-- The registers after a step in numbers: `V[x]`, VF, PC. -/
def seen (x : Reg) (o : Option State) : Option (Nat × Nat × Nat) :=
  o.map fun t => ((t.getV x).toNat, (t.getV 15).toNat, t.pc.toNat)

/-- The failure record after a step: code, `op`, `pc`, `addr`, in numbers; and the PC. -/
def failure (o : Option State) : Option (Option (Nat × Option Nat × Nat × Option Nat) × Nat) :=
  o.map fun t => (t.fault.map fun f => (f.kind.code, f.op.map BitVec.toNat, f.pc.toNat, f.addr), t.pc.toNat)

/-- Bytes of memory from an address on, in numbers. -/
def bytesAt (a n : Nat) (o : Option State) : Option (List Nat) := o.map fun t => (t.mem.readBytes a n).map BitVec.toNat

/-- The host has announced this KEYS sample. -/
def withKeys (k : Word) (s : State) : State := { s with inputs := { s.inputs with keys := [k] } }

/-- The host has announced this RND byte. -/
def withRnd (b : Byte) (s : State) : State := { s with inputs := { s.inputs with rnd := [b] } }

/-- SP is `n`. -/
def withSp (n : Fin 17) (s : State) : State := { s with sp := n }

/-- `STACK[k]` is `w`. -/
def withEntry (k : Fin 16) (w : Word) (s : State) : State := { s with stack := s.stack.set k.val w k.isLt }

/-- The other timer mode, and the host's next events. -/
def inExternal (events : List Bool) (s : State) : State :=
  { s with params := { s.params with timerMode := .external }, inputs := { s.inputs with ticks := events } }

/-! ## Well-formedness -/

/-- R236: the loader rejects a ROM of more than 3584 bytes. -/
theorem test_rom_too_large : romFits (List.replicate 3585 0) = false := by rw [romFits, List.length_replicate]; decide

theorem test_rom_largest : romFits (List.replicate 3584 0) = true := by rw [romFits, List.length_replicate]; decide

/-- R232: the font has exactly 80 bytes. -/
theorem test_font_short : fontFits (List.replicate 79 0) = false := by decide

theorem test_font_long : fontFits (List.replicate 81 0) = false := by decide

theorem test_font_default : fontFits fontTable = true := by decide

/-- No term of `Instr` is ill formed: each field has exactly the values of its bits. -/
theorem test_instr_wellFormed (i : Instr) : i.wellFormed = true := by cases i <;> rfl

/-- R60: fewer than two bytes are no instruction. -/
theorem test_truncated : decodeBytes [0x60] = .error .truncated := by decide

/-- R68: the rejected word is named. -/
theorem test_reject_word : decodeBytes [0x81, 0x28, 0x00] = .error (.unknownOpcode 0x8128) := by decide

/-! ## One word of every instruction, its bits written out from spec/30_encoding.md R61 and the instruction's rule -/

theorem test_decode_display :
    decode 0b0000000011100000#16 = some .cls ∧ decode 0b1101011110100011#16 = some (.drw 7 10 3) := by decide

theorem test_decode_control :
    decode 0b0000000011101110#16 = some .ret ∧ decode 0b0001001000110100#16 = some (.jp 0x234) ∧
    decode 0b0010101010111100#16 = some (.call 0xABC) ∧ decode 0b1011001011111111#16 = some (.jpV0 0x2FF) := by decide

theorem test_decode_skips :
    decode 0b0011001000010001#16 = some (.seImm 2 0x11) ∧ decode 0b0100001000010001#16 = some (.sneImm 2 0x11) ∧
    decode 0b0101000100100000#16 = some (.seReg 1 2) ∧ decode 0b1001000100100000#16 = some (.sneReg 1 2) := by decide

theorem test_decode_constants :
    decode 0b0110101000101111#16 = some (.ldImm 10 0x2F) ∧ decode 0b0111000000001010#16 = some (.addImm 0 0x0A) ∧
    decode 0b1100001100001111#16 = some (.rnd 3 0x0F) := by decide

theorem test_decode_logic :
    decode 0b1000000100110000#16 = some (.ldReg 1 3) ∧ decode 0b1000000100100001#16 = some (.orReg 1 2) ∧
    decode 0b1000000100100010#16 = some (.andReg 1 2) ∧ decode 0b1000000100100011#16 = some (.xorReg 1 2) := by decide

theorem test_decode_flagged :
    decode 0b1000101010110100#16 = some (.addReg 10 11) ∧ decode 0b1000000100100101#16 = some (.sub 1 2) ∧
    decode 0b1000010001010110#16 = some (.shr 4 5) ∧ decode 0b1000000100100111#16 = some (.subn 1 2) ∧
    decode 0b1000010001011110#16 = some (.shl 4 5) := by decide

theorem test_decode_index :
    decode 0b1010001001010000#16 = some (.ldI 0x250) ∧ decode 0b1111001000011110#16 = some (.addI 2) ∧
    decode 0b1111001000101001#16 = some (.ldF 2) := by decide

theorem test_decode_memory :
    decode 0b1111000000110011#16 = some (.ldB 0) ∧ decode 0b1111000101010101#16 = some (.storeRegs 1) ∧
    decode 0b1111001001100101#16 = some (.loadRegs 2) := by decide

theorem test_decode_keys :
    decode 0b1110010110011110#16 = some (.skp 5) ∧ decode 0b1110010110100001#16 = some (.sknp 5) ∧
    decode 0b1111010100001010#16 = some (.ldVxK 5) := by decide

theorem test_decode_timers :
    decode 0b1111001100000111#16 = some (.ldVxDT 3) ∧ decode 0b1111000000010101#16 = some (.ldDTVx 0) ∧
    decode 0b1111000100011000#16 = some (.ldSTVx 1) := by decide

/-- V-DEC-1 to V-DEC-8: words of no row. -/
theorem test_decode_unknown :
    [0x0000#16, 0x00E1, 0x00EF, 0x00EA, 0x01E0, 0x0FEE, 0x5121, 0x912E, 0x8128, 0x812F, 0xE19F, 0xE0A2, 0xE09D, 0xF106,
     0xF10B, 0xF130, 0xF185, 0xF1FF].map decode = List.replicate 18 none := by decide

/-- V-DEC-8: words at the edge of the legal set. -/
theorem test_decode_edge :
    decodeTableWord 16 0x5FF0 = some (.seReg 15 15) ∧ decodeTableWord 16 0x800E = some (.shl 0 0) ∧
    decodeTableWord 16 0x8FF7 = some (.subn 15 15) ∧ decodeTableWord 16 0xEF9E = some (.skp 15) ∧
    decodeTableWord 16 0xFF65 = some (.loadRegs 15) ∧ decodeTableWord 16 0xD000 = some (.drw 0 0 0) := by decide

/-! ## Arithmetic and logic (section 2.1) -/

/-- S1. -/
theorem test_ldImm : seen 3 (run 0x63AB fun s => (s.setV 3 0x11).setV 15 0x33) = some (0xAB, 0x33, 0x202) := by decide

/-- V-ARI-4. -/
theorem test_addImm_wraps : seen 0 (run 0x7001 fun s => (s.setV 0 0xFF).setV 15 1) = some (0x00, 1, 0x202) := by
  decide

/-- V-ARI-6. -/
theorem test_ldReg : seen 1 (run 0x8120 fun s => (s.setV 1 0x11).setV 2 0x99) = some (0x99, 0, 0x202) := by decide

/-- V-ARI-8: VF is not reset. -/
theorem test_orReg : seen 1 (run 0x8121 fun s => ((s.setV 1 0xF0).setV 2 0x0F).setV 15 1) = some (0xFF, 1, 0x202) := by
  decide

/-- V-ARI-9. -/
theorem test_andReg : seen 1 (run 0x8122 fun s => ((s.setV 1 0xF0).setV 2 0x3C).setV 15 1) = some (0x30, 1, 0x202) := by
  decide

/-- V-ARI-10. -/
theorem test_xorReg : seen 1 (run 0x8123 fun s => ((s.setV 1 0xF0).setV 2 0x3C).setV 15 1) = some (0xCC, 1, 0x202) := by
  decide

/-- V-ARI-14: 255 is no carry. -/
theorem test_addReg_255 : seen 1 (run 0x8124 fun s => (s.setV 1 0x80).setV 2 0x7F) = some (0xFF, 0, 0x202) := by
  decide

/-- V-VF-1: with VF as destination the sum lands last. -/
theorem test_addReg_vf : seen 15 (run 0x8F14 fun s => (s.setV 15 0xF0).setV 1 0x20) = some (0x10, 0x10, 0x202) := by
  decide

/-- V-ARI-18: equal operands give flag 0. -/
theorem test_sub_equal : seen 1 (run 0x8125 fun s => (s.setV 1 7).setV 2 7) = some (0, 0, 0x202) := by decide

/-- V-VF-6: the difference reads the VF just written. -/
theorem test_sub_vf : seen 1 (run 0x81F5 fun s => (s.setV 1 0x0A).setV 15 3) = some (9, 1, 0x202) := by decide

/-- V-ARI-23: Vy is ignored. -/
theorem test_shr : seen 4 (run 0x8456 fun s => (s.setV 4 6).setV 5 0xFF) = some (3, 0, 0x202) := by decide

/-- V-VF-9. -/
theorem test_shr_vf : seen 15 (run 0x8F06 fun s => s.setV 15 3) = some (0, 0, 0x202) := by decide

/-- V-ARI-25. -/
theorem test_subn : seen 1 (run 0x8127 fun s => (s.setV 1 3).setV 2 2) = some (0xFF, 0, 0x202) := by decide

/-- V-VF-13. -/
theorem test_subn_vf : seen 1 (run 0x81F7 fun s => (s.setV 1 3).setV 15 0x0A) = some (0xFE, 1, 0x202) := by decide

/-- V-ARI-27. -/
theorem test_shl : seen 4 (run 0x840E fun s => s.setV 4 0x81) = some (2, 1, 0x202) := by decide

/-- V-VF-16. -/
theorem test_shl_vf : seen 15 (run 0x8F0E fun s => s.setV 15 0x81) = some (2, 2, 0x202) := by decide

/-- V-ARI-31. -/
theorem test_rnd : seen 3 (run 0xC30F (withRnd 0xB7)) = some (7, 0, 0x202) := by decide

/-! ## Control flow (section 2.2) -/

/-- V-CTL-1. -/
theorem test_jp : seen 0 (run 0x1234 id) = some (0, 0, 0x234) := by decide

/-- V-CTL-6: the sixteenth nested call is legal. -/
theorem test_call_sixteenth :
    (run 0x2ABC (withSp 15)).map (fun t => (t.stack.get 15, t.sp.val, t.pc)) = some (0x202, 16, 0xABC) := by decide

/-- V-CTL-7. -/
theorem test_call_full : failure (run 0x2ABC (withSp 16)) = some (some (2, some 0x2ABC, 0x200, none), 0x200) := by
  decide

/-- V-CTL-8: the popped entry is kept. -/
theorem test_ret :
    (run 0x00EE fun s => withSp 1 (withEntry 0 0x3F2 s)).map (fun t => (t.stack.get 0, t.sp.val, t.pc)) =
      some (0x3F2, 0, 0x3F2) := by decide

/-- V-CTL-9. -/
theorem test_ret_empty : failure (run 0x00EE id) = some (some (3, some 0x00EE, 0x200, none), 0x200) := by decide

/-- V-CTL-11, V-CTL-12. -/
theorem test_seImm : seen 0 (run 0x3000 id) = some (0, 0, 0x204) ∧ seen 0 (run 0x3001 id) = some (0, 0, 0x202) := by
  decide

/-- V-CTL-13, V-CTL-14. -/
theorem test_sneImm : seen 0 (run 0x4000 id) = some (0, 0, 0x202) ∧ seen 0 (run 0x4001 id) = some (0, 0, 0x204) := by
  decide

/-- V-CTL-15, V-CTL-16. -/
theorem test_seReg :
    seen 1 (run 0x5120 fun s => (s.setV 1 3).setV 2 3) = some (3, 0, 0x204) ∧
    seen 1 (run 0x5120 fun s => (s.setV 1 3).setV 2 4) = some (3, 0, 0x202) := by decide

/-- V-CTL-18, V-CTL-19. -/
theorem test_sneReg :
    seen 1 (run 0x9120 fun s => (s.setV 1 3).setV 2 4) = some (3, 0, 0x204) ∧
    seen 1 (run 0x9120 fun s => (s.setV 1 3).setV 2 3) = some (3, 0, 0x202) := by decide

/-- V-CTL-22: V0 is added, never V2. -/
theorem test_jpV0 : seen 0 (run 0xB2FF fun s => (s.setV 0 1).setV 2 0x10) = some (1, 0, 0x300) := by decide

/-- V-CTL-23: the sum is not reduced, and the next fetch fails. -/
theorem test_jpV0_past_end :
    seen 0 (run 0xBFFF fun s => s.setV 0 0xFF) = some (0xFF, 0, 0x10FE) ∧
    failure (nextOf (step (State.reset.setPc 0x10FE))) = some (some (4, none, 0x10FE, some 4350), 0x10FE) := by
  decide

/-- V-CTL-25: an odd PC is fetched byte by byte. -/
theorem test_odd_pc :
    failure (nextOf (step ((State.reset.setMem ((Memory.write [] 0x201 0x01).write 0x202 0x60)).setPc 0x201))) =
      some (some (1, some 0x0160, 0x201, none), 0x201) := by decide

/-! ## Display (section 2.3) -/

/-- V-DRW-1: VF is not written. -/
theorem test_cls :
    (run 0x00E0 fun s => (s.setDisp (s.disp.toggle 31 63)).setV 15 9).map
      (fun t => (t.disp.pixel 31 63, t.getV 15, t.pc)) = some (false, 9, 0x202) := by decide

/-- V-DRW-2: the sprite is clipped at the corner. -/
theorem test_drw_clipped :
    (run 0xD125 fun s => ((s.setI 0x09B).setV 1 60).setV 2 30).map
      (fun t => (t.disp.pixel 30 63, t.disp.pixel 31 60, t.disp.pixel 31 63, t.disp.pixel 0 60)) =
        some (true, true, false, false) := by decide

/-- V-DRW-8: collision is per pixel. -/
theorem test_drw_collision :
    (run 0xD011 fun s => ((s.setI 0x300).setMem (s.mem.write 0x300 0xFF)).setDisp (s.disp.toggle 0 3)).map
      (fun t => (t.disp.pixel 0 0, t.disp.pixel 0 3, t.disp.pixel 0 7, t.disp.pixel 0 8, t.getV 15)) =
        some (true, false, true, false, 1) := by decide

/-! ## Index and memory (section 2.4) -/

/-- V-IDX-1. -/
theorem test_ldI : (run 0xA250 id).map (fun t => t.i) = some 0x250 := by decide

/-- V-IDX-5. -/
theorem test_addI_wraps : (run 0xF21E fun s => (s.setI 0xFFFF).setV 2 1).map (fun t => t.i) = some 0 := by decide

/-- V-IDX-4: no bound at 0xFFF and no flag. -/
theorem test_addI_no_flag :
    (run 0xF21E fun s => ((s.setI 0xFFF).setV 2 1).setV 15 5).map (fun t => (t.i, t.getV 15)) = some (0x1000, 5) := by
  decide

/-- V-IDX-8, V-IDX-10: the digit is not masked. -/
theorem test_ldF :
    (run 0xF229 fun s => s.setV 2 0xF).map (fun t => t.i) = some 0x09B ∧
    (run 0xF229 fun s => s.setV 2 0xFF).map (fun t => t.i) = some 0x54B := by decide

/-- V-IDX-15. -/
theorem test_ldB : bytesAt 0xFFD 3 (run 0xF033 fun s => (s.setI 0xFFD).setV 0 0xEA) = some [2, 3, 4] := by decide

/-- V-IDX-17. -/
theorem test_ldB_out :
    failure (run 0xF033 fun s => (s.setI 0x2000).setV 0 1) = some (some (4, some 0xF033, 0x200, some 8192), 0x200) := by
  decide

/-- V-IDX-18: `I` is unchanged and the byte after is kept. -/
theorem test_storeRegs :
    bytesAt 0x300 3 (run 0xF155 fun s => (((s.setI 0x300).setV 0 0x11).setV 1 0x22).setV 2 0x33) = some [0x11, 0x22, 0] ∧
    (run 0xF155 fun s => s.setI 0x300).map (fun t => t.i) = some 0x300 := by decide

/-- V-IDX-20: nothing is written. -/
theorem test_storeRegs_out :
    (run 0xFF55 fun s => ((s.setI 0xFF1).setV 0 1).setV 15 0xEE).map (fun t => (t.mem.read 0xFF1, t.fault.isSome)) =
      some (0, true) := by decide

/-- V-IDX-24: the default font, VF loaded like any register. -/
theorem test_loadRegs :
    (run 0xFF65 fun s => s.setI 0x050).map (fun t => t.v.toList.map BitVec.toNat) =
      some [0xF0, 0x90, 0x90, 0x90, 0xF0, 0x20, 0x60, 0x20, 0x20, 0x70, 0xF0, 0x10, 0xF0, 0x80, 0xF0, 0xF0] := by
  decide

/-- V-IDX-25. -/
theorem test_loadRegs_out :
    failure (run 0xF165 fun s => s.setI 0xFFF) = some (some (4, some 0xF165, 0x200, some 4096), 0x200) := by decide

/-! ## Timers and keys (section 2.5) -/

/-- V-TIM-1, V-TIM-2. -/
theorem test_skp :
    seen 5 (run 0xE59E fun s => withKeys 0x0400 (s.setV 5 0xA)) = some (0xA, 0, 0x204) ∧
    seen 5 (run 0xE59E fun s => withKeys 0xFBFF (s.setV 5 0xA)) = some (0xA, 0, 0x202) := by decide

/-- V-TIM-6. -/
theorem test_skp_out :
    failure (run 0xE59E fun s => withKeys 0xFFFF (s.setV 5 0x10)) = some (some (5, some 0xE59E, 0x200, some 16), 0x200) := by
  decide

/-- V-TIM-3, V-TIM-4. -/
theorem test_sknp :
    seen 5 (run 0xE5A1 fun s => withKeys 0x0000 (s.setV 5 0xA)) = some (0xA, 0, 0x204) ∧
    seen 5 (run 0xE5A1 fun s => withKeys 0x0400 (s.setV 5 0xA)) = some (0xA, 0, 0x202) := by decide

/-- V-TIM-7. -/
theorem test_sknp_out :
    failure (run 0xE5A1 fun s => s.setV 5 0xFF) = some (some (5, some 0xE5A1, 0x200, some 255), 0x200) := by decide

/-- V-TIM-8: the timer is read before the tick of the same cycle. -/
theorem test_ldVxDT : (run 0xF307 fun s => s.setDT 0x2A).map (fun t => (t.getV 3, t.dt)) = some (0x2A, 0x29) := by
  decide

/-- V-TIM-10: written 3, ticked once; in external mode not ticked. -/
theorem test_ldDTVx :
    (run 0xF015 fun s => s.setV 0 3).map (fun t => t.dt) = some 2 ∧
    (run 0xF015 fun s => inExternal [] (s.setV 0 3)).map (fun t => t.dt) = some 3 := by decide

/-- V-TIM-13, V-TIM-14. -/
theorem test_ldSTVx :
    (run 0xF118 fun s => s.setV 1 2).map (fun t => (t.st, t.soundOn)) = some (1, true) ∧
    (run 0xF118 fun s => s.setV 1 1).map (fun t => (t.st, t.soundOn)) = some (0, false) := by decide

/-- V-TIM-16: keys 4 and 7 are down. -/
theorem test_ldVxK : seen 5 (run 0xF50A (withKeys 0x0090)) = some (4, 0, 0x202) := by decide

/-- V-TIM-15, V-TIM-18: no key, the cycle ticks all the same. -/
theorem test_ldVxK_waits :
    (run 0xF50A fun s => withKeys 0 ((s.setV 5 9).setDT 5)).map (fun t => (t.getV 5, t.pc, t.dt)) = some (9, 0x200, 4) := by
  decide

/-! ## Failures (section 2.7) -/

/-- V-FLT-1: the first cycle of an empty ROM. -/
theorem test_empty_rom : failure (nextOf (step State.reset)) = some (some (1, some 0x0000, 0x200, none), 0x200) := by
  decide

/-- V-FLT-6: the fetch at 0xFFF. -/
theorem test_fetch_4095 :
    failure (nextOf (step (State.reset.setPc 0xFFF))) = some (some (4, none, 0xFFF, some 4096), 0xFFF) := by decide

/-! ## Witnesses: concrete data that meet the hypotheses of the statements, at the edges of each clause -/

/-- A failure record, as a decode failure at 0x200 leaves it. -/
def deadRecord : FailureRecord := { kind := .unknownOpcode, op := some 0, pc := 0x200, addr := none }

/-- EncodeOfDecode. -/
theorem test_witness_decode : decode 0x8AB4#16 = some (.addReg 10 11) := by decide

/-- DecodeFollowsOpcodeMap: a row, and a word that matches it. -/
theorem test_witness_row : (⟨0xF00F#16, 0x8004#16⟩ : OpcodeRow) ∈ opcodeTable ∧ 0x8AB4#16 &&& 0xF00F#16 = 0x8004#16 := by
  decide

/-- StrictGroups: the edges of group 0, and a low nibble that is not 0. -/
theorem test_witness_groups :
    (0x0000#16).toNat < 0x1000 ∧ (0x0FFF#16).toNat < 0x1000 ∧ (0x1#4) ≠ 0 ∧ (0xF#4) ≠ 0 := by decide

/-- StepRunsDecoded, CoupledCycleTicks (the completing cycle): 0x6005 at the last address a fetch can take. -/
theorem test_witness_cycle :
    let s := (State.reset.setPc 0xFFE).withFetchWord 16 0x6005
    s.fault = none ∧ s.params.timerMode = .coupled ∧ s.pc.toNat ≤ 4094 ∧
    decode (s.mem.read s.pc.toNat ++ s.mem.read (s.pc.toNat + 1)) = some (.ldImm 0 5) ∧
    (match s.fetch with | .ok op => decode op | .error _ => none) = some (.ldImm 0 5) ∧
    (nextOf (exec (.ldImm 0 5) s)).map (fun u => u.fault) = some none := by decide

/-- CoupledCycleTicks (the failing cycle): 0x00EE with an empty stack. -/
theorem test_witness_failing_cycle :
    let s := placed 0x00EE id
    s.fault = none ∧ s.params.timerMode = .coupled ∧
    (match s.fetch with | .ok op => decode op | .error _ => none) = some .ret ∧
    (nextOf (exec .ret s)).map (fun u => u.fault.isSome) = some true := by decide

/-- FetchBounds, FetchFailureHalts: each clause at its edge, in a running core. -/
theorem test_witness_fetch :
    (State.reset.setPc 0xFFE).pc.toNat ≤ 4094 ∧ (State.reset.setPc 0xFFF).pc.toNat = 4095 ∧
    4095 < (State.reset.setPc 0x1000).pc.toNat ∧ 4094 < (State.reset.setPc 0xFFF).pc.toNat ∧
    (State.reset.setPc 0xFFF).fault = none ∧ (State.reset.setPc 0xFFF).params.timerMode = .coupled := by decide

/-- FetchFailureHalts, UnknownOpcodeHalts, ExternalTicks: a step event in external mode whose fetch is out of bounds, and one whose
word is unknown. -/
theorem test_witness_external_failure :
    let s := inExternal [false] State.reset
    s.fault = none ∧ s.params.timerMode = .external ∧ s.nextIsTick = false ∧ s.pc.toNat ≤ 4094 ∧
    (match s.fetch with | .ok op => some (op, decode op) | .error _ => none) = some (0x0000#16, none) ∧
    (s.setPc 0xFFF).nextIsTick = false ∧ 4094 < (s.setPc 0xFFF).pc.toNat ∧
    (match (s.setPc 0xFFF).fetch with | .ok _ => none | .error a => some a) = some 4096 := by decide

/-- UnknownOpcodeHalts: the first cycle of an empty ROM. -/
theorem test_witness_unknown :
    State.reset.fault = none ∧ State.reset.params.timerMode = .coupled ∧ State.reset.pc.toNat ≤ 4094 ∧
    0x0000#16 = State.reset.mem.read State.reset.pc.toNat ++ State.reset.mem.read (State.reset.pc.toNat + 1) ∧
    decode 0x0000#16 = none := by decide

/-- FailedCycleChangesOnlyTheLatch: the first cycle of an empty ROM, and in external mode. -/
theorem test_witness_failed :
    State.reset.fault = none ∧ (nextOf (step State.reset)).map (fun t => t.fault) = some (some deadRecord) ∧
    (inExternal [false] State.reset).fault = none ∧
    (nextOf (step (inExternal [false] State.reset))).map (fun t => t.fault) = some (some deadRecord) := by decide

/-- HaltIsPermanent. -/
theorem test_witness_halted : { State.reset with fault := some deadRecord }.fault ≠ none := by decide

/-- WhichInstructionRaisesWhat: an instruction of each clause raises its failure in a running core, at the edge. -/
theorem test_witness_raises_stack :
    (nextOf (exec (.call 0x200) (withSp 16 State.reset))).map (fun t => t.fault.map (·.kind)) = some (some .stackOverflow) ∧
    (nextOf (exec .ret State.reset)).map (fun t => t.fault.map (·.kind)) = some (some .stackUnderflow) := by decide

theorem test_witness_raises_bounds :
    (nextOf (exec (.drw 1 2 15) (State.reset.setI 0xFF2))).map (fun t => t.fault.map (·.kind)) = some (some .outOfBounds) ∧
    (nextOf (exec (.ldB 0) (State.reset.setI 0xFFE))).map (fun t => t.fault.map (·.kind)) = some (some .outOfBounds) ∧
    (nextOf (exec (.storeRegs 15) (State.reset.setI 0xFF1))).map (fun t => t.fault.map (·.kind)) = some (some .outOfBounds) ∧
    (nextOf (exec (.loadRegs 1) (State.reset.setI 0xFFF))).map (fun t => t.fault.map (·.kind)) =
      some (some .outOfBounds) := by decide

theorem test_witness_raises_key :
    (nextOf (exec (.skp 5) (State.reset.setV 5 16))).map (fun t => t.fault.map (·.kind)) = some (some .keyIndexOutOfRange) ∧
    (nextOf (exec (.sknp 5) (State.reset.setV 5 16))).map (fun t => t.fault.map (·.kind)) =
      some (some .keyIndexOutOfRange) := by decide

/-- AddWithCarry, SubtractWithFlag, ShiftByOne, FlagRegisterAliasing: VF as neither operand, as the first, the second, both. -/
theorem test_witness_flag_register :
    ((14 : Reg) ≠ 15 ∧ (0 : Reg) ≠ 15) ∧ ((15 : Reg) = 15 ∧ (0 : Reg) ≠ 15) ∧ ((14 : Reg) ≠ 15 ∧ (15 : Reg) = 15) := by decide

/-- MaskedRandom: the two edge masks. -/
theorem test_witness_mask : (0x00#8) = 0 ∧ (0xFF#8) = 0xFF ∧ (withRnd 0xB7 State.reset).nextRnd = 0xB7 := by decide

/-- CallPushes, ReturnPops: the edges of SP. -/
theorem test_witness_stack :
    (withSp 15 State.reset).sp.val < 16 ∧ (withSp 16 State.reset).sp.val = 16 ∧ (withSp 1 State.reset).sp.val ≠ 0 ∧
    (withSp 16 State.reset).sp.val ≠ 0 ∧ State.reset.sp.val = 0 := by decide

/-- CallThenReturn: the deepest call; and a call at SP = 0 with a return from a state that a nested call has left a stale entry
in. -/
theorem test_witness_call_return :
    (withSp 15 State.reset).sp.val < 16 ∧ State.reset.sp.val < 16 ∧
    ∃ t u : State, exec (.call 0x300) State.reset = .next t ∧ u.sp = t.sp ∧
      (∀ k : Fin 16, k.val = State.reset.sp.val → u.stack.get k = t.stack.get k) ∧ u.stack.get 1 ≠ t.stack.get 1 :=
  ⟨by decide, by decide, _, withSp 1 (withEntry 0 0x202 (withEntry 1 0x302 State.reset)), rfl, by decide, by decide, by decide⟩

/-- SkipOnConstant, SkipOnRegisters: equal and different. -/
theorem test_witness_skip :
    (State.reset.setV 1 3).getV 1 = 3 ∧ (State.reset.setV 1 3).getV 1 ≠ 4 ∧
    ((State.reset.setV 1 3).setV 2 3).getV 1 = ((State.reset.setV 1 3).setV 2 3).getV 2 ∧
    (State.reset.setV 1 3).getV 1 ≠ (State.reset.setV 1 3).getV 2 := by decide

/-- Jump: the highest target a fetch can take, and the one above. -/
theorem test_witness_jump : (0xFFE#12).toNat < 4095 ∧ (0xFFF#12).toNat = 4095 := by decide

/-- SelfJumpOnlyTicks: 0x1200 at 0x200. -/
theorem test_witness_self_jump :
    (placed 0x1200 id).fault = none ∧ (placed 0x1200 id).params.timerMode = .coupled ∧ (placed 0x1200 id).AtSelfJump :=
  ⟨by decide, by decide, 0x200, by rfl, by decide⟩

/-- DrawSprite: no rows with `I` outside memory, the highest legal base and the lowest illegal one. -/
theorem test_witness_draw_range :
    (State.reset.setI 0xFF1).i.toNat + (15#4).toNat - 1 ≤ 4095 ∧ (15#4) ≠ 0 ∧
    4095 < (State.reset.setI 0xFF2).i.toNat + (15#4).toNat - 1 ∧ (0#4) = 0 := by decide

/-- DrawSprite, DrawTwiceRestores: one sprite row at the bottom right pixel. -/
def corner : State := ((State.reset.setI 0x050).setV 1 63).setV 2 31

/-- DrawSprite: pixel (31, 63) is hit, by bit 7 of the first font byte; it was off, and can be on; pixel (0, 0) is not hit. -/
theorem test_witness_draw_hit :
    (0 : Nat) < (1#4).toNat ∧ 31 = (corner.getV 2).toNat % 32 + 0 ∧ 63 = (corner.getV 1).toNat % 64 + 0 ∧
    (corner.mem.read (corner.ea 0)).getLsbD (7 - 0) = true ∧ corner.disp.pixel 31 63 = false ∧
    (corner.setDisp (corner.disp.toggle 31 63)).disp.pixel 31 63 = true ∧ 0 ≠ (corner.getV 2).toNat % 32 := by decide

/-- DrawTwiceRestores: the first draw turns pixel (31, 63) on; with no rows it turns none on. -/
theorem test_witness_draw_twice :
    (1 : Reg) ≠ 15 ∧ (2 : Reg) ≠ 15 ∧ corner.i.toNat + (1#4).toNat - 1 ≤ 4095 ∧
    (nextOf (exec (.drw 1 2 1) corner)).map (fun t => (corner.disp.pixel 31 63, t.disp.pixel 31 63)) = some (false, true) ∧
    ∃ t, exec (.drw 1 2 0) corner = .next t ∧ t.disp = corner.disp :=
  ⟨by decide, by decide, by decide, by decide, ⟨_, rfl, rfl⟩⟩

/-- DisplayIsIsolated: CLS, an instruction that is neither, and DRW. -/
theorem test_witness_isolated :
    (∀ x y n, Instr.cls ≠ .drw x y n) ∧ (∃ t, exec .cls State.reset = .next t) ∧
    (∀ x y n, Instr.ldI 1 ≠ .drw x y n) ∧ Instr.ldI 1 ≠ .cls ∧ (∃ t, exec (.ldI 1) State.reset = .next t) ∧
    ∃ t, exec (.drw 1 2 0) State.reset = .next t :=
  ⟨nofun, ⟨_, rfl⟩, nofun, nofun, ⟨_, rfl⟩, ⟨_, rfl⟩⟩

/-- StoreDecimalDigits, StoreRegisters, LoadRegisters: the highest legal base and the lowest illegal one. -/
theorem test_witness_ranges :
    (State.reset.setI 0xFFD).i.toNat ≤ 4093 ∧ 4093 < (State.reset.setI 0xFFE).i.toNat ∧
    (State.reset.setI 0xFF0).i.toNat + (15 : Reg).val ≤ 4095 ∧ 4095 < (State.reset.setI 0xFF1).i.toNat + (15 : Reg).val := by
  decide

/-- StoreSeenByFetch: V0 and V1 stored at 0xFFE, and a core with that memory that fetches there. -/
theorem test_witness_self_modify :
    (State.reset.setI 0xFFE).i.toNat + (1 : Reg).val ≤ 4095 ∧ (1 : Reg).val = (0 : Reg).val + 1 ∧ (1 : Reg) ≤ 1 ∧
    ∃ t u : State, exec (.storeRegs 1) (State.reset.setI 0xFFE) = .next t ∧ u.mem = t.mem ∧
      u.pc.toNat = (State.reset.setI 0xFFE).ea (0 : Reg).val :=
  ⟨by decide, by decide, by decide, _, (State.reset.setPc 0xFFE).setMem _, rfl, rfl, by decide⟩

/-- MemoryIsItsBytes: an address at the edge, another one, and two canonical memories made in two ways that read alike. -/
theorem test_witness_memory :
    (4095 < 4096 ∧ (0 : Nat) ≠ 4095) ∧
    Memory.wf (Memory.write [] 0x300 7) ∧ Memory.wf [(0x300, 7)] ∧
    ∀ a : Nat, Memory.read (Memory.write [] 0x300 7) a = Memory.read [(0x300, 7)] a :=
  ⟨by decide, Memory.wf_write Memory.wf_nil _ _, by decide, fun _ => rfl⟩

/-- KeySkips: the highest key id, pressed and released, and the lowest id of no key. -/
theorem test_witness_keys :
    (State.reset.setV 5 15).getV 5 = 15 ∧ 15 < ((State.reset.setV 5 16).getV 5).toNat ∧
    (withKeys 0x8000 State.reset).nextKeys.getLsbD 15 = true ∧ (withKeys 0x7FFF State.reset).nextKeys.getLsbD 15 = false := by
  decide

/-- WaitForKey: no key pressed, and the two extreme keys pressed under the default choice. -/
theorem test_witness_wait :
    (withKeys 0 State.reset).nextKeys = 0 ∧ (withKeys 0x8001 State.reset).nextKeys ≠ 0 ∧
    (withKeys 0x8001 State.reset).params.keyPick = .lowest := by decide

/-- TimerAccess: a running core in coupled mode. -/
theorem test_witness_timer : State.reset.fault = none ∧ State.reset.params.timerMode = .coupled := by decide

/-- TickCountsDown: a timer at 1 and at 0. -/
theorem test_witness_tick :
    0 < ((State.reset.setDT 1).setST 0).dt.toNat ∧ ((State.reset.setDT 1).setST 0).st = 0 ∧
    ((State.reset.setDT 0).setST 1).dt = 0 ∧ 0 < ((State.reset.setDT 0).setST 1).st.toNat := by decide

/-- ExternalTicks: a tick event, and a step event at 0x1200. -/
theorem test_witness_external :
    (inExternal [true] State.reset).fault = none ∧ (inExternal [true] State.reset).params.timerMode = .external ∧
    (inExternal [true] State.reset).nextIsTick = true ∧
    (placed 0x1200 (inExternal [])).nextIsTick = false ∧ (placed 0x1200 (inExternal [])).fault = none ∧
    (placed 0x1200 (inExternal [])).params.timerMode = .external ∧
    (match (placed 0x1200 (inExternal [])).fetch with | .ok op => decode op | .error _ => none) = some (.jp 0x200) := by decide

/-- WriteSets: Fx33 and Fx55 at their highest legal bases. -/
theorem test_witness_stores :
    (∃ t, exec (.ldB 0) (State.reset.setI 0xFFD) = .next t ∧ t.fault = none) ∧
    ∃ t, exec (.storeRegs 15) (State.reset.setI 0xFF0) = .next t ∧ t.fault = none :=
  ⟨⟨_, rfl, rfl⟩, _, rfl, rfl⟩

/-- WriteSets, WhoWritesTheFlagRegister: an instruction that changes VF. -/
theorem test_witness_writes :
    ∃ t, exec (.ldImm 15 1) State.reset = .next t ∧ t.getV 15 ≠ State.reset.getV 15 := ⟨_, rfl, by decide⟩

/-- StepKeepsInvariant: the reset state meets the invariant, and its step answers a next state. -/
theorem test_witness_invariant : State.reset.Inv ∧ ∃ t, step State.reset = .next t :=
  ⟨⟨Memory.wf_nil, by decide, by decide, fun f h => by cases h⟩, ⟨_, rfl⟩⟩

/-- EvenAddressesStayEven: a jump to an even address from the reset state. -/
theorem test_witness_even : State.reset.Even ∧ TargetEven State.reset (.jp 0x234) ∧ ∃ t, exec (.jp 0x234) State.reset = .next t :=
  ⟨⟨by decide, by decide⟩, by unfold TargetEven; decide, ⟨_, rfl⟩⟩

/-- ResetState: the default font with the largest ROM. -/
theorem test_witness_reset : fontFits fontTable = true ∧ romFits (List.replicate 3584 0xFF) = true :=
  ⟨by decide, by rw [romFits, List.length_replicate]; decide⟩

end Sys2Proof.Tests
end

/-! PROOFS. Frame rules of the state's operations, what `exec` can answer, and the statements on the state
(spec/10_state.md). -/

namespace Sys2Proof.Machine

/-! ### Frames compose -/

theorem Part.Keeps.trans {p : Part} {s t u : State} (h : p.Keeps s t) (g : p.Keeps t u) : p.Keeps s u := by
  cases p <;> simp_all [Part.Keeps]

theorem KeepsAllBut.trans {ps qs : List Part} {s t u : State} (h : KeepsAllBut ps s t) (g : KeepsAllBut qs t u) :
    KeepsAllBut (ps ++ qs) s u := by
  intro p hp
  rw [List.mem_append, not_or] at hp
  exact (h p hp.1).trans (g p hp.2)

theorem KeepsAllBut.mono {ps qs : List Part} {s t : State} (h : KeepsAllBut ps s t) (hs : ps ⊆ qs) : KeepsAllBut qs s t :=
  fun p hp => h p fun hm => hp (hs hm)

/-- A frame, piece by piece. -/
theorem keepsAllBut_iff {ps : List Part} {s t : State} : KeepsAllBut ps s t ↔
    (.regs ∉ ps → ∀ r : Reg, t.getV r = s.getV r) ∧ (.index ∉ ps → t.i = s.i) ∧ (.pc ∉ ps → t.pc = s.pc) ∧
    (.sp ∉ ps → t.sp = s.sp) ∧ (.stack ∉ ps → ∀ k : Fin 16, t.stack.get k = s.stack.get k) ∧ (.dt ∉ ps → t.dt = s.dt) ∧
    (.st ∉ ps → t.st = s.st) ∧ (.mem ∉ ps → ∀ a : Nat, t.mem.read a = s.mem.read a) ∧
    (.disp ∉ ps → ∀ y x : Nat, t.disp.pixel y x = s.disp.pixel y x) ∧ (.fault ∉ ps → t.fault = s.fault) ∧
    (.params ∉ ps → t.params = s.params) ∧ (.inputs ∉ ps → t.inputs = s.inputs) := by
  constructor
  · exact fun h => ⟨h .regs, h .index, h .pc, h .sp, h .stack, h .dt, h .st, h .mem, h .disp, h .fault, h .params, h .inputs⟩
  · rintro ⟨_, _, _, _, _, _, _, _, _, _, _, _⟩ p
    cases p <;> assumption

theorem KeepsRegs.of_keeps {ps : List Part} {s t : State} (h : KeepsAllBut ps s t) (hp : Part.regs ∉ ps) (rs : List Reg) :
    KeepsRegs rs s t := fun r _ => h .regs hp r

/-! ### The frame of each operation -/

section
variable (s : State)

theorem keeps_setPc (w : Word) : KeepsAllBut [.pc] s (s.setPc w) := by simp [keepsAllBut_iff]

theorem keeps_advance : KeepsAllBut [.pc] s s.advance := keeps_setPc s _

theorem keeps_advance_setPc (w : Word) : KeepsAllBut [.pc] s (s.advance.setPc w) :=
  ((keeps_advance s).trans (keeps_setPc _ w)).mono (by simp)

theorem keeps_skipIf (c : Bool) : KeepsAllBut [.pc] s (s.skipIf c) := by simp [keepsAllBut_iff]

theorem keeps_setV (r : Reg) (b : Byte) : KeepsAllBut [.regs] s (s.setV r b) := by simp [keepsAllBut_iff]

theorem keeps_setRegs (k : Nat) (bs : List Byte) : KeepsAllBut [.regs] s (s.setRegs k bs) := by simp [keepsAllBut_iff]

theorem keeps_setI (w : Word) : KeepsAllBut [.index] s (s.setI w) := by simp [keepsAllBut_iff]

theorem keeps_setDT (b : Byte) : KeepsAllBut [.dt] s (s.setDT b) := by simp [keepsAllBut_iff]

theorem keeps_setST (b : Byte) : KeepsAllBut [.st] s (s.setST b) := by simp [keepsAllBut_iff]

theorem keeps_setMem (m : Memory) : KeepsAllBut [.mem] s (s.setMem m) := by simp [keepsAllBut_iff]

theorem keeps_setDisp (d : Display) : KeepsAllBut [.disp] s (s.setDisp d) := by simp [keepsAllBut_iff]

theorem keeps_tookKeys : KeepsAllBut [.inputs] s s.tookKeys := by simp [keepsAllBut_iff]

theorem keeps_tookRnd : KeepsAllBut [.inputs] s s.tookRnd := by simp [keepsAllBut_iff]

theorem keeps_latch (k : FailureKind) (o : Option Word) (a : Option Nat) : KeepsAllBut [.fault] s (s.latch k o a) := by
  simp [keepsAllBut_iff]

theorem keeps_tookKeys_skipIf (c : Bool) : KeepsAllBut [.pc, .inputs] s (s.advance.tookKeys.skipIf c) :=
  (((keeps_advance s).trans (keeps_tookKeys _)).trans (keeps_skipIf _ c)).mono (by simp)

theorem keeps_tookKeys_setV (r : Reg) (b : Byte) : KeepsAllBut [.regs, .pc, .inputs] s (s.advance.tookKeys.setV r b) :=
  (((keeps_advance s).trans (keeps_tookKeys _)).trans (keeps_setV _ r b)).mono (by simp)

theorem keeps_pop {t : State} {w : Word} (h : s.pop = some (w, t)) : KeepsAllBut [.sp] s t := by
  obtain ⟨_, -, rfl⟩ := State.pop_eq_some h
  simp [keepsAllBut_iff, State.getV]

theorem keeps_push {t : State} {w : Word} (h : s.push w = some t) : KeepsAllBut [.stack, .sp] s t := by
  obtain ⟨_, rfl⟩ := State.push_eq_some h
  simp [keepsAllBut_iff, State.getV]

end

/-- A write of `V[x]` after updates that keep every register. -/
theorem keepsRegs_setV {s t : State} (x : Reg) (b : Byte) (h : ∀ q : Reg, t.getV q = s.getV q) :
    KeepsRegs [x] s (t.setV x b) := fun q hq =>
  (State.getV_setV_ne t x q b (by simpa using hq)).trans (h q)

/-! ### What `exec` can answer -/

/-- The failures that an instruction can raise, with the recorded address or key id (spec/60_exceptions.md R201 to R206). -/
inductive Fails (s : State) : Instr → FailureKind → Option Nat → Prop where
  | ret (h : s.sp.val = 0) : Fails s .ret .stackUnderflow none
  | call (nnn : BitVec 12) (h : s.sp.val = 16) : Fails s (.call nnn) .stackOverflow none
  | drw (x y : Reg) (n : BitVec 4) (a : Nat) (h : s.rangeFault n.toNat = some a) : Fails s (.drw x y n) .outOfBounds (some a)
  | ldB (x : Reg) (a : Nat) (h : s.rangeFault 3 = some a) : Fails s (.ldB x) .outOfBounds (some a)
  | storeRegs (x : Reg) (a : Nat) (h : s.rangeFault (x.val + 1) = some a) : Fails s (.storeRegs x) .outOfBounds (some a)
  | loadRegs (x : Reg) (a : Nat) (h : s.rangeFault (x.val + 1) = some a) : Fails s (.loadRegs x) .outOfBounds (some a)
  | skp (x : Reg) (h : 15 < (s.getV x).toNat) : Fails s (.skp x) .keyIndexOutOfRange (some (s.getV x).toNat)
  | sknp (x : Reg) (h : 15 < (s.getV x).toNat) : Fails s (.sknp x) .keyIndexOutOfRange (some (s.getV x).toNat)

/-- How many bytes from `I` on an instruction writes (spec/43_index_memory.md R153, R154). -/
def storesOf : Instr → Nat
  | .ldB _ => 3
  | .storeRegs x => x.val + 1
  | _ => 0

/-- Where an instruction that does not fail can leave PC (spec/41_control_flow.md R120, spec/44_timer_input.md R173). -/
def nextPcs (s : State) : Instr → List Word
  | .ret => [s.stack.get ⟨s.sp.val - 1, by omega⟩]
  | .jp nnn | .call nnn => [addrImm nnn]
  | .jpV0 nnn => [offsetTarget (s.getV 0) nnn]
  | .seImm _ _ | .sneImm _ _ | .seReg _ _ | .sneReg _ _ | .skp _ | .sknp _ => [s.pc + 2, s.pc + 2 + 2]
  | .ldVxK _ => [s.pc + 2, s.pc]
  | _ => [s.pc + 2]

/-- What holds of the state `t` in which the instruction `i` completes from `s`: its frame (R22, R71), what becomes of the
stack and of memory, and where PC is. -/
structure Completed (s : State) (i : Instr) (t : State) : Prop where
  keeps : KeepsAllBut (writesOf i) s t
  regs : KeepsRegs (regsOf i) s t
  stack : t.stack = s.stack ∨ ∃ h : s.sp.val < 16, t.stack = s.stack.set s.sp.val (s.pc + 2) h
  mem : ∃ bs : List Byte, bs.length = storesOf i ∧ t.mem = s.mem.writeBytes (s.ea 0) bs
  pc : t.pc ∈ nextPcs s i

/-- `exec i s` raises a failure of `i`, or completes. -/
def FailsOrCompletes (i : Instr) (s : State) : Prop :=
  (∃ k a, Fails s i k a ∧ exec i s = .next (s.latch k (some (encode i)) a)) ∨ ∃ t, Completed s i t ∧ exec i s = .next t

theorem FailsOrCompletes.failed {i : Instr} {s : State} {k : FailureKind} {a : Option Nat} (hf : Fails s i k a)
    (h : exec i s = raise s k (some (encode i)) a) : FailsOrCompletes i s := .inl ⟨k, a, hf, h⟩

theorem FailsOrCompletes.completed {i : Instr} {s t : State} (hc : Completed s i t) (h : exec i s = .next t) :
    FailsOrCompletes i s := .inr ⟨t, hc, h⟩

/-! ### The shapes of a completed instruction -/

section
variable {s : State} {i : Instr}

/-- An instruction that touches neither the stack nor memory. -/
theorem Completed.simple {t : State} (hk : KeepsAllBut (writesOf i) s t) (hr : KeepsRegs (regsOf i) s t)
    (hs : t.stack = s.stack) (hm : t.mem = s.mem) (hn : storesOf i = 0) (hp : t.pc ∈ nextPcs s i) : Completed s i t :=
  ⟨hk, hr, .inl hs, ⟨[], hn.symm, hm⟩, hp⟩

theorem Completed.setV {x : Reg} (b : Byte) (hw : writesOf i = [.regs, .pc]) (hr : regsOf i = [x]) (hn : storesOf i = 0)
    (hp : nextPcs s i = [s.pc + 2]) : Completed s i (s.advance.setV x b) := by
  have hk := (keeps_advance s).trans (keeps_setV _ x b)
  exact .simple (hw ▸ hk.mono (by simp)) (hr ▸ keepsRegs_setV x b fun _ => rfl) rfl rfl hn (by simp [hp])

theorem Completed.setVF_setV {x : Reg} (f b : Byte) (hw : writesOf i = [.regs, .pc]) (hr : regsOf i = [flagReg, x])
    (hn : storesOf i = 0) (hp : nextPcs s i = [s.pc + 2]) : Completed s i ((s.advance.setVF f).setV x b) := by
  refine .simple ?_ ?_ rfl rfl hn (by simp [hp])
  · exact hw ▸ (((keeps_advance s).trans (keeps_setV _ flagReg f)).trans (keeps_setV _ x b)).mono (by simp)
  · intro r h
    rw [hr, List.mem_cons, List.mem_singleton, not_or] at h
    rw [State.getV_setV_ne _ _ _ _ h.2]
    exact State.getV_setV_ne _ _ _ _ h.1

theorem Completed.setPc {w : Word} (hw : writesOf i = [.pc]) (hn : storesOf i = 0) (hp : nextPcs s i = [w]) :
    Completed s i (s.advance.setPc w) :=
  have hk := keeps_advance_setPc s w
  .simple (hw ▸ hk) (.of_keeps hk (by simp) _) rfl rfl hn (by simp [hp])

theorem Completed.skipIf (c : Bool) (hw : writesOf i = [.pc]) (hn : storesOf i = 0)
    (hp : nextPcs s i = [s.pc + 2, s.pc + 2 + 2]) : Completed s i (s.advance.skipIf c) :=
  have hk : KeepsAllBut [.pc] s (s.advance.skipIf c) := ((keeps_advance s).trans (keeps_skipIf _ c)).mono (by simp)
  .simple (hw ▸ hk) (.of_keeps hk (by simp) _) (by simp) (by simp) hn (by cases c <;> simp [hp])

theorem Completed.setI (w : Word) (hw : writesOf i = [.index, .pc]) (hn : storesOf i = 0) (hp : nextPcs s i = [s.pc + 2]) :
    Completed s i (s.advance.setI w) :=
  have hk := (keeps_advance s).trans (keeps_setI _ w)
  .simple (hw ▸ hk.mono (by simp)) (.of_keeps hk (by simp) _) rfl rfl hn (by simp [hp])

theorem Completed.setMem {bs : List Byte} (hw : writesOf i = [.mem, .pc]) (hn : bs.length = storesOf i)
    (hp : nextPcs s i = [s.pc + 2]) : Completed s i (s.advance.setMem (s.mem.writeBytes (s.ea 0) bs)) :=
  have hk := (keeps_advance s).trans (keeps_setMem _ (s.mem.writeBytes (s.ea 0) bs))
  ⟨hw ▸ hk.mono (by simp), .of_keeps hk (by simp) _, .inl rfl, ⟨bs, hn, rfl⟩, by simp [hp]⟩

end

/-! ### The instructions that can fail or have a shape of their own -/

theorem exec_ret_of_empty {s : State} (h : s.sp.val = 0) : exec .ret s = raise s .stackUnderflow (some (encode .ret)) none := by
  have hp : s.advance.pop = none := State.pop_eq_none.mpr h
  simp [exec, execRet, hp]

/-- 00EE with a stack that is not empty: PC from the entry below SP, which is kept (R123). -/
theorem exec_ret_of_nonempty {s : State} (h : s.sp.val ≠ 0) : ∃ t, exec .ret s = .next t ∧ t.sp.val = s.sp.val - 1 ∧
    t.pc = s.stack.get ⟨s.sp.val - 1, by omega⟩ ∧ t.stack = s.stack ∧ t.mem = s.mem ∧ KeepsAllBut [.sp, .pc] s t := by
  cases hp : s.advance.pop with
  | none => exact absurd (State.pop_eq_none.mp hp) h
  | some r =>
    obtain ⟨w, t⟩ := r
    have he : exec .ret s = .next (t.setPc w) := by simp only [exec, execRet, hp]
    have hk : KeepsAllBut [.sp, .pc] s (t.setPc w) :=
      (((keeps_advance s).trans (keeps_pop _ hp)).trans (keeps_setPc t w)).mono (by simp)
    obtain ⟨_, rfl, rfl⟩ := State.pop_eq_some hp
    exact ⟨_, he, rfl, rfl, rfl, rfl, hk⟩

theorem ret_failsOrCompletes (s : State) : FailsOrCompletes .ret s := by
  by_cases h : s.sp.val = 0
  · exact .failed (.ret h) (exec_ret_of_empty h)
  · obtain ⟨t, he, -, hpc, hst, hm, hk⟩ := exec_ret_of_nonempty h
    exact .completed (.simple hk (.of_keeps hk (by simp) _) hst hm rfl (List.mem_singleton.mpr hpc)) he

theorem call_failsOrCompletes (nnn : BitVec 12) (s : State) : FailsOrCompletes (.call nnn) s := by
  cases hp : s.advance.push s.advance.pc with
  | none => exact .failed (.call nnn (State.push_eq_none (s := s.advance).mp hp)) (by simp only [exec, execCall, hp])
  | some t =>
    have hk := ((keeps_advance s).trans (keeps_push _ hp)).trans (keeps_setPc t (addrImm nnn))
    obtain ⟨h, rfl⟩ := State.push_eq_some hp
    exact .completed ⟨hk.mono (by simp [writesOf]), .of_keeps hk (by simp) _, .inr ⟨h, rfl⟩, ⟨[], rfl, rfl⟩,
      List.mem_singleton_self _⟩ (by simp only [exec, execCall, hp])

theorem drw_failsOrCompletes (x y : Reg) (n : BitVec 4) (s : State) : FailsOrCompletes (.drw x y n) s := by
  cases hf : s.rangeFault n.toNat with
  | some a => exact .failed (.drw x y n a hf) (by simp [exec, execDrw, hf])
  | none =>
    let r := s.disp.xorSprite (anchorY (s.getV y)) (anchorX (s.getV x)) (s.mem.readBytes (s.ea 0) n.toNat)
    have hk := ((keeps_advance s).trans (keeps_setDisp _ r.1)).trans (keeps_setV _ flagReg (collisionFlag r.2))
    exact .completed (.simple (hk.mono (by simp [writesOf])) (keepsRegs_setV flagReg _ fun _ => rfl) rfl rfl rfl
      (List.mem_singleton_self _)) (by simp only [exec, execDrw, hf]; rfl)

theorem ldB_failsOrCompletes (x : Reg) (s : State) : FailsOrCompletes (.ldB x) s := by
  cases hf : s.rangeFault 3 with
  | some a => exact .failed (.ldB x a hf) (by simp [exec, execLdB, hf])
  | none => exact .completed (.setMem (bs := decimalDigits (s.getV x)) rfl rfl rfl) (by simp [exec, execLdB, hf])

theorem storeRegs_failsOrCompletes (x : Reg) (s : State) : FailsOrCompletes (.storeRegs x) s := by
  cases hf : s.rangeFault (x.val + 1) with
  | some a => exact .failed (.storeRegs x a hf) (by simp [exec, execStoreRegs, hf])
  | none =>
    have hn : (s.regBytes (x.val + 1)).length = x.val + 1 := by simp [State.regBytes]
    exact .completed (.setMem rfl hn rfl) (by simp [exec, execStoreRegs, hf])

theorem loadRegs_failsOrCompletes (x : Reg) (s : State) : FailsOrCompletes (.loadRegs x) s := by
  cases hf : s.rangeFault (x.val + 1) with
  | some a => exact .failed (.loadRegs x a hf) (by simp [exec, execLoadRegs, hf])
  | none =>
    let bs := s.mem.readBytes (s.ea 0) (x.val + 1)
    have hk := (keeps_advance s).trans (keeps_setRegs _ 0 bs)
    refine .completed (t := s.advance.setRegs 0 bs)
      (.simple (hk.mono (by simp [writesOf])) ?_ (by simp) (by simp) rfl (by simp [nextPcs]))
      (by simp [exec, execLoadRegs, hf, bs])
    intro q hq
    have hq : x.val + 1 ≤ q.val := by simpa [regsOf] using hq
    rw [State.getV_setRegs, Memory.getD_readBytes, Nat.sub_zero, if_neg (Nat.not_lt.mpr hq), ite_self]
    rfl

/-- Ex9E and ExA1 differ only in the flag they want. -/
theorem Completed.keySkip {i : Instr} (c : Bool) (s : State) (hw : writesOf i = [.pc, .inputs]) (hn : storesOf i = 0)
    (hp : nextPcs s i = [s.pc + 2, s.pc + 2 + 2]) : Completed s i (s.advance.tookKeys.skipIf c) :=
  have hk := keeps_tookKeys_skipIf s c
  .simple (hw ▸ hk) (.of_keeps hk (by simp) _) (by simp) (by simp) hn (by cases c <;> simp [hp])

theorem keySkip_of_le {i : Instr} {x : Reg} {want : Bool} {s : State} (h : (s.getV x).toNat ≤ 15) :
    keySkip i x want s = .next (s.advance.tookKeys.skipIf (keyDown s.nextKeys (s.getV x).toNat == want)) :=
  if_neg (Nat.not_lt.mpr h)

theorem keySkip_of_gt {i : Instr} {x : Reg} {want : Bool} {s : State} (h : 15 < (s.getV x).toNat) :
    keySkip i x want s = raise s .keyIndexOutOfRange (some (encode i)) (some (s.getV x).toNat) := if_pos h

theorem skp_failsOrCompletes (x : Reg) (s : State) : FailsOrCompletes (.skp x) s := by
  by_cases h : 15 < (s.getV x).toNat
  · exact .failed (.skp x h) (keySkip_of_gt h)
  · exact .completed (.keySkip _ s rfl rfl rfl) (keySkip_of_le (Nat.not_lt.mp h))

theorem sknp_failsOrCompletes (x : Reg) (s : State) : FailsOrCompletes (.sknp x) s := by
  by_cases h : 15 < (s.getV x).toNat
  · exact .failed (.sknp x h) (keySkip_of_gt h)
  · exact .completed (.keySkip _ s rfl rfl rfl) (keySkip_of_le (Nat.not_lt.mp h))

theorem rnd_completed (x : Reg) (kk b : Byte) (s : State) : Completed s (.rnd x kk) (s.advance.tookRnd.setV x b) := by
  have hk := ((keeps_advance s).trans (keeps_tookRnd _)).trans (keeps_setV _ x b)
  exact .simple (hk.mono (by simp [writesOf])) (keepsRegs_setV x b fun _ => rfl) rfl rfl rfl (List.mem_singleton_self _)

/-- Fx0A with no key pressed leaves PC at its own address: the advance and the rewind cancel (log 24). -/
theorem exec_ldVxK_of_no_key {x : Reg} {s : State} (h : s.nextKeys = 0) :
    exec (.ldVxK x) s = .next (s.advance.tookKeys.setPc s.pc) := by
  simp [exec, execLdVxK, h]

theorem exec_ldVxK_of_key {x : Reg} {s : State} (h : s.nextKeys ≠ 0) : exec (.ldVxK x) s =
    .next (s.advance.tookKeys.setV x (BitVec.ofNat 8 (pickKey s.params.keyPick s.nextKeys).val)) :=
  congrArg Host.Outcome.next (if_pos h)

theorem ldVxK_failsOrCompletes (x : Reg) (s : State) : FailsOrCompletes (.ldVxK x) s := by
  by_cases h : s.nextKeys = 0
  · have hk := ((keeps_advance s).trans (keeps_tookKeys _)).trans (keeps_setPc _ s.pc)
    exact .completed (.simple (hk.mono (by simp [writesOf])) (.of_keeps hk (by simp) _) rfl rfl rfl (by simp [nextPcs]))
      (exec_ldVxK_of_no_key h)
  · exact .completed (.simple (keeps_tookKeys_setV s x _) (keepsRegs_setV x _ fun _ => rfl) rfl rfl rfl (by simp [nextPcs]))
      (exec_ldVxK_of_key h)

theorem cls_completed (s : State) : Completed s .cls (s.advance.setDisp Display.clear) :=
  have hk := (keeps_advance s).trans (keeps_setDisp _ Display.clear)
  .simple (hk.mono (by simp [writesOf])) (.of_keeps hk (by simp) _) rfl rfl rfl (List.mem_singleton_self _)

theorem ldDTVx_completed (x : Reg) (s : State) : Completed s (.ldDTVx x) (s.advance.setDT (s.getV x)) :=
  have hk := (keeps_advance s).trans (keeps_setDT _ (s.getV x))
  .simple (hk.mono (by simp [writesOf])) (.of_keeps hk (by simp) _) rfl rfl rfl (List.mem_singleton_self _)

theorem ldSTVx_completed (x : Reg) (s : State) : Completed s (.ldSTVx x) (s.advance.setST (s.getV x)) :=
  have hk := (keeps_advance s).trans (keeps_setST _ (s.getV x))
  .simple (hk.mono (by simp [writesOf])) (.of_keeps hk (by simp) _) rfl rfl rfl (List.mem_singleton_self _)

/-! ### Every instruction -/

/-- Every instruction, in every state, raises one of its failures or completes within its write set. -/
theorem exec_failsOrCompletes (i : Instr) (s : State) : FailsOrCompletes i s := by
  cases i with
  | cls => exact .completed (cls_completed s) rfl
  | ret => exact ret_failsOrCompletes s
  | jp nnn => exact .completed (.setPc rfl rfl rfl) rfl
  | call nnn => exact call_failsOrCompletes nnn s
  | seImm x kk => exact .completed (.skipIf _ rfl rfl rfl) rfl
  | sneImm x kk => exact .completed (.skipIf _ rfl rfl rfl) rfl
  | seReg x y => exact .completed (.skipIf _ rfl rfl rfl) rfl
  | ldImm x kk => exact .completed (.setV _ rfl rfl rfl rfl) rfl
  | addImm x kk => exact .completed (.setV _ rfl rfl rfl rfl) rfl
  | ldReg x y => exact .completed (.setV _ rfl rfl rfl rfl) rfl
  | orReg x y => exact .completed (.setV _ rfl rfl rfl rfl) rfl
  | andReg x y => exact .completed (.setV _ rfl rfl rfl rfl) rfl
  | xorReg x y => exact .completed (.setV _ rfl rfl rfl rfl) rfl
  | addReg x y => exact .completed (.setVF_setV _ _ rfl rfl rfl rfl) rfl
  | sub x y => exact .completed (.setVF_setV _ _ rfl rfl rfl rfl) rfl
  | shr x y => exact .completed (.setVF_setV _ _ rfl rfl rfl rfl) rfl
  | subn x y => exact .completed (.setVF_setV _ _ rfl rfl rfl rfl) rfl
  | shl x y => exact .completed (.setVF_setV _ _ rfl rfl rfl rfl) rfl
  | sneReg x y => exact .completed (.skipIf _ rfl rfl rfl) rfl
  | ldI nnn => exact .completed (.setI _ rfl rfl rfl) rfl
  | jpV0 nnn => exact .completed (.setPc rfl rfl rfl) rfl
  | rnd x kk => exact .completed (rnd_completed x kk _ s) rfl
  | drw x y n => exact drw_failsOrCompletes x y n s
  | skp x => exact skp_failsOrCompletes x s
  | sknp x => exact sknp_failsOrCompletes x s
  | ldVxDT x => exact .completed (.setV _ rfl rfl rfl rfl) rfl
  | ldVxK x => exact ldVxK_failsOrCompletes x s
  | ldDTVx x => exact .completed (ldDTVx_completed x s) rfl
  | ldSTVx x => exact .completed (ldSTVx_completed x s) rfl
  | addI x => exact .completed (.setI _ rfl rfl rfl) rfl
  | ldF x => exact .completed (.setI _ rfl rfl rfl) rfl
  | ldB x => exact ldB_failsOrCompletes x s
  | storeRegs x => exact storeRegs_failsOrCompletes x s
  | loadRegs x => exact loadRegs_failsOrCompletes x s

/-- What a next state of `exec` can be. -/
theorem exec_next_cases {i : Instr} {s t : State} (h : exec i s = .next t) :
    (∃ k a, Fails s i k a ∧ t = s.latch k (some (encode i)) a) ∨ Completed s i t := by
  rcases exec_failsOrCompletes i s with ⟨k, a, hf, he⟩ | ⟨u, hc, he⟩
  · exact .inl ⟨k, a, hf, Host.Outcome.next.inj (h.symm.trans he)⟩
  · exact .inr (Host.Outcome.next.inj (h.symm.trans he) ▸ hc)

/-! ### The invariant -/

/-- The record of a failure that an instruction raises is consistent with its kind (spec/60_exceptions.md R201 to R206). -/
theorem Fails.consistent {s : State} {i : Instr} {k : FailureKind} {a : Option Nat} (h : Fails s i k a) (pc : Word) :
    (FailureRecord.mk k (some (encode i)) pc a).consistent = true := by
  have range {n b : Nat} (hb : s.rangeFault n = some b) : 4096 ≤ b ∧ b < 65536 := by
    obtain ⟨-, -, rfl⟩ := State.rangeFault_eq_some.mp hb
    have := s.i.isLt
    omega
  have keyId {x : Reg} (sel : Byte) (hx : 15 < (s.getV x).toNat) :
      fmtXS 0xE#4 x sel &&& 0xF000 = 0xE000 ∧ 15 < (s.getV x).toNat ∧ (s.getV x).toNat < 256 :=
    ⟨BitVec.eq_of_toNat_eq (fmtXKK_and 0xE#4 x sel), hx, (s.getV x).isLt⟩
  cases h with
  | ret => rfl
  | call nnn => exact decide_eq_true (Laws.MatchesRow.call nnn)
  | drw x y n b hb => exact decide_eq_true (range hb)
  | ldB x b hb => exact decide_eq_true (range hb)
  | storeRegs x b hb => exact decide_eq_true (range hb)
  | loadRegs x b hb => exact decide_eq_true (range hb)
  | skp x hx => exact decide_eq_true (keyId _ hx)
  | sknp x hx => exact decide_eq_true (keyId _ hx)

theorem toNat_addrImm (nnn : BitVec 12) : (addrImm nnn).toNat = nnn.toNat := BitVec.toNat_setWidth_of_le (by decide)

theorem toNat_offsetTarget (v : Byte) (nnn : BitVec 12) : (offsetTarget v nnn).toNat = v.toNat + nnn.toNat := by
  have := nnn.isLt
  have := v.isLt
  rw [offsetTarget, BitVec.toNat_add, toNat_addrImm, BitVec.toNat_setWidth_of_le (by decide)]
  omega

/-- PC and the return addresses stay in range (spec/10_state.md R13, R15): after a fetch PC is at most 4094, so a skip reaches at
most 4098; the largest target is that of Bnnn, 255 + 4095. -/
theorem nextPcs_le {s : State} {i : Instr} {w : Word} (hpc : s.pc.toNat ≤ 4094)
    (hst : ∀ k : Fin 16, (s.stack.get k).toNat ≤ 4096) (hw : w ∈ nextPcs s i) : w.toNat ≤ 4350 := by
  have h2 : (s.pc + 2).toNat = s.pc.toNat + 2 := by bv_omega
  have h4 : (s.pc + 2 + 2).toNat = s.pc.toNat + 4 := by bv_omega
  cases i with
  | ret =>
    obtain rfl := List.mem_singleton.mp hw
    exact Nat.le_trans (hst _) (by decide)
  | jp nnn | call nnn =>
    obtain rfl := List.mem_singleton.mp hw
    rw [toNat_addrImm]
    have := nnn.isLt
    omega
  | jpV0 nnn =>
    obtain rfl := List.mem_singleton.mp hw
    rw [toNat_offsetTarget]
    have := nnn.isLt
    have := (s.getV 0).isLt
    omega
  | seImm | sneImm | seReg | sneReg | skp | sknp | ldVxK => rcases List.mem_pair.mp hw with rfl | rfl <;> omega
  | _ =>
    obtain rfl := List.mem_singleton.mp hw
    omega

theorem fault_not_mem_writesOf (i : Instr) : Part.fault ∉ writesOf i := by cases i <;> simp [writesOf]

theorem State.Inv.of_eq {s t : State} (hs : s.Inv) (hm : t.mem = s.mem) (hp : t.pc = s.pc) (hst : t.stack = s.stack)
    (hf : t.fault = s.fault) : t.Inv :=
  ⟨hm ▸ hs.memWf, hp ▸ hs.pcBound, hst ▸ hs.stackBound, hp ▸ hf ▸ hs.faultOk⟩

theorem State.Inv.latch {s : State} {k : FailureKind} {o : Option Word} {a : Option Nat} (hs : s.Inv)
    (hc : (FailureRecord.mk k o s.pc a).consistent = true) : (s.latch k o a).Inv where
  memWf := hs.memWf
  pcBound := hs.pcBound
  stackBound := hs.stackBound
  faultOk := by
    rintro f ⟨⟩
    exact ⟨rfl, hc⟩

theorem State.Inv.endCycle {s : State} (hs : s.Inv) : s.endCycle.Inv := by
  unfold State.endCycle
  split
  · exact hs.of_eq rfl rfl rfl rfl
  · exact hs

theorem Completed.inv {s t : State} {i : Instr} (h : Completed s i t) (hs : s.Inv) (hf : s.fault = none)
    (hpc : s.pc.toNat ≤ 4094) : t.Inv where
  memWf := by
    obtain ⟨bs, -, hm⟩ := h.mem
    exact hm ▸ Memory.wf_writeBytes hs.memWf _ bs
  pcBound := nextPcs_le hpc hs.stackBound h.pc
  stackBound := by
    intro k
    have hk := hs.stackBound k
    obtain hst | ⟨_, hst⟩ := h.stack
    · rwa [hst]
    · rw [Vector.get_eq_getElem] at hk
      rw [hst, Vector.get_eq_getElem, Vector.getElem_set]
      split
      · bv_omega
      · exact hk
  faultOk := by
    have hk : t.fault = s.fault := h.keeps .fault (fault_not_mem_writesOf i)
    simp [hk, hf]

theorem exec_keeps_inv {s t : State} {i : Instr} (hs : s.Inv) (hf : s.fault = none) (hpc : s.pc.toNat ≤ 4094)
    (h : exec i s = .next t) : t.Inv := by
  rcases exec_next_cases h with ⟨k, a, hfail, rfl⟩ | hc
  · exact hs.latch (hfail.consistent s.pc)
  · exact hc.inv hs hf hpc

theorem cycle_keeps_inv {s t : State} (hs : s.Inv) (hf : s.fault = none) (h : cycle s = .next t) : t.Inv := by
  rcases cycle_cases s with ⟨a, ha, hc⟩ | ⟨op, -, hd, hc⟩ | ⟨op, i, hop, -, hc⟩ <;> rw [hc] at h
  · obtain rfl := Host.Outcome.next.inj h
    obtain ⟨-, rfl⟩ := State.fetch_eq_error.mp ha
    have := s.pc.isLt
    exact hs.latch (decide_eq_true (by omega))
  · obtain rfl := Host.Outcome.next.inj h
    exact hs.latch (by simp [FailureRecord.consistent, hd])
  · cases he : exec i s with
    | next u =>
      rw [he] at h
      obtain rfl := Host.Outcome.next.inj h
      exact (exec_keeps_inv hs hf (State.fetch_eq_ok.mp hop).1 he).endCycle
    | fault f => cases f
    | refused r => simp [he] at h

/-- Settles O50: what a step can be, then what a cycle can answer, then what the instruction leaves. -/
theorem stepKeepsInvariant : Obligations.StepKeepsInvariant := by
  intro s t hs h
  have hev : s.tookEvent.Inv := hs.of_eq rfl rfl rfl rfl
  rcases step_cases s with ⟨-, hc⟩ | ⟨hf, -, hc⟩ | ⟨-, -, -, hc⟩ | ⟨hf, -, -, hc⟩ <;> rw [hc] at h
  · exact Host.Outcome.next.inj h ▸ hs
  · exact cycle_keeps_inv hs hf h
  · exact Host.Outcome.next.inj h ▸ hev.of_eq rfl rfl rfl rfl
  · exact cycle_keeps_inv hev hf h

/-- Settles O51: every field but memory is that of `State.reset`, and a loaded image is canonical. -/
theorem resetMeetsInvariant : Obligations.ResetMeetsInvariant :=
  have reset : State.reset.Inv := ⟨State.reset_mem_wf, by decide, by decide, fun _ hf => nomatch hf⟩
  ⟨reset, fun font rom => ⟨Memory.wf_image font rom, reset.pcBound, reset.stackBound, reset.faultOk⟩⟩

/-! ### Write sets -/

/-- Settles O48: a failure changes the latch alone, and a completed instruction keeps its frame. -/
theorem writeSets : Obligations.WriteSets := by
  intro i s t h
  rcases exec_next_cases h with ⟨k, a, -, rfl⟩ | hc
  · have hk := keeps_latch s k (some (encode i)) a
    exact ⟨hk.mono (by simp), .of_keeps hk (by simp) _, fun _ _ => rfl, fun _ _ _ _ => rfl, fun _ _ _ _ => rfl⟩
  · obtain ⟨bs, hn, hm⟩ := hc.mem
    have hmem : KeepsMemOutside (s.ea 0) (storesOf i) s t := fun b hb => by
      rw [hm, Memory.read_writeBytes_outside _ _ _ _ (hn ▸ hb)]
    refine ⟨hc.keeps.mono (List.subset_cons_self _ _), hc.regs, fun k hk => ?_, ?_, ?_⟩
    · obtain hst | ⟨_, hst⟩ := hc.stack
      · rw [hst]
      · simp [hst, Vector.get_eq_getElem, Ne.symm hk]
    · rintro x rfl
      exact hmem
    · rintro x rfl
      exact hmem

/-- Which instructions have VF among the registers they may write (R11, R242). -/
theorem flagReg_mem_regsOf {i : Instr} (h : flagReg ∈ regsOf i) :
    (∃ x y, i = .addReg x y ∨ i = .sub x y ∨ i = .shr x y ∨ i = .subn x y ∨ i = .shl x y) ∨
    (∃ x y n, i = .drw x y n) ∨
    (∃ kk, i = .ldImm 15 kk ∨ i = .addImm 15 kk ∨ i = .rnd 15 kk) ∨
    (∃ y, i = .ldReg 15 y ∨ i = .orReg 15 y ∨ i = .andReg 15 y ∨ i = .xorReg 15 y) ∨
    i = .ldVxDT 15 ∨ i = .ldVxK 15 ∨ i = .loadRegs 15 := by
  cases i with
  | loadRegs x =>
    have hx : flagReg ≤ x := by simpa [regsOf] using h
    have : x = 15 := Fin.last_le_iff.mp hx
    simp [this]
  | _ => simp_all [regsOf]

/-- Settles O49: a register that changed is one of those that `regsOf` lists. -/
theorem whoWritesTheFlagRegister : Obligations.WhoWritesTheFlagRegister := by
  intro i s t h hne
  obtain ⟨-, hregs, -⟩ := writeSets i s t h
  exact flagReg_mem_regsOf (by_contra fun hm => hne (hregs 15 hm))

/-! ### Events of a halted core, and an unknown opcode -/

theorem step_halted {s : State} (h : s.Halted) : step s = .next s := by
  rcases step_cases s with ⟨-, hc⟩ | ⟨hf, -⟩ | ⟨hf, -⟩ | ⟨hf, -⟩
  · exact hc
  all_goals simp [State.Halted, hf] at h

theorem step_coupled {s : State} (hf : s.fault = none) (hm : s.params.timerMode = .coupled) : step s = cycle s := by
  rcases step_cases s with ⟨h, -⟩ | ⟨-, -, hc⟩ | ⟨-, he, -⟩ | ⟨-, he, -⟩
  · simp [State.Halted, hf] at h
  · exact hc
  all_goals simp [hm] at he

theorem step_external {s : State} (hf : s.fault = none) (hm : s.params.timerMode = .external) (ht : s.nextIsTick = false) :
    step s = cycle s.tookEvent := by
  rcases step_cases s with ⟨h, -⟩ | ⟨-, he, -⟩ | ⟨-, -, he, -⟩ | ⟨-, -, -, hc⟩
  · simp [State.Halted, hf] at h
  · simp [hm] at he
  · simp [ht] at he
  · exact hc

theorem run_halted {s : State} (h : s.Halted) (k : Nat) : Host.Core.run core k s = .next s := by
  induction k with
  | zero => rfl
  | succ k ih =>
    have hs : core.step s = .next s := step_halted h
    simp only [Host.Core.run, hs]
    exact ih

/-- Settles O12, by induction on the number of steps. -/
theorem haltIsPermanent : Obligations.HaltIsPermanent := by
  intro s k h
  have hh : s.Halted := Option.isSome_iff_ne_none.mpr h
  exact ⟨run_halted hh k, if_neg (by simp [h])⟩

theorem cycle_of_decode_none {s : State} (hpc : s.pc.toNat ≤ 4094)
    (hd : decode (wordOfBytes (s.mem.read s.pc.toNat) (s.mem.read (s.pc.toNat + 1))) = none) :
    cycle s = .next
      (s.latch .unknownOpcode (some (wordOfBytes (s.mem.read s.pc.toNat) (s.mem.read (s.pc.toNat + 1)))) none) := by
  simp [cycle, State.fetch_eq_ok.mpr ⟨hpc, rfl⟩, runWord, hd, raise]

/-- Settles O10: the cycle latches the record, from the state itself or from the state after the event was taken. -/
theorem unknownOpcodeHalts : Obligations.UnknownOpcodeHalts := by
  rintro s op hf hpc rfl hd
  refine ⟨⟨.unknownOpcode, some _, s.pc, none⟩, fun hm => ?_, fun hm ht => ?_, rfl, rfl, rfl, rfl, ?_, rfl⟩
  · exact (step_coupled hf hm).trans (cycle_of_decode_none hpc hd)
  · exact (step_external hf hm ht).trans (cycle_of_decode_none (s := s.tookEvent) hpc hd)
  · exact congrArg some (toNat_fieldG _)

/-! ### 00EE, Ex9E, ExA1, Fx0A -/

theorem decode_fmtXS_E (x : Reg) (sel : Byte) : decode (fmtXS 0xE#4 x sel) = decodeE sel x := by
  simp [decode, fmtXS_eq]

theorem decode_fmtXS_F (x : Reg) (sel : Byte) : decode (fmtXS 0xF#4 x sel) = decodeF sel x := by
  simp [decode, fmtXS_eq]

/-- Settles O26: an empty stack raises, and from any other the entry below SP is popped. -/
theorem returnPops : Obligations.ReturnPops := by
  intro s
  refine ⟨by decide, fun h => ?_, exec_ret_of_empty⟩
  obtain ⟨t, he, hsp, hpc, -, -, hk⟩ := exec_ret_of_nonempty h
  refine ⟨t, he, hsp, fun k hk => ?_, hk⟩
  rw [hpc]
  congr
  exact hk.symm

/-- Both key skips: PC + 4 where the sampled flag of the key is `want`, PC + 2 where it is not (R170, R171, R176). -/
theorem keySkip_spec (i : Instr) (x : Reg) (want : Bool) {s : State} (h : (s.getV x).toNat ≤ 15) :
    ∃ t, keySkip i x want s = .next t ∧ (s.nextKeys.getLsbD (s.getV x).toNat = want → t.pc = s.pc + 4) ∧
      (s.nextKeys.getLsbD (s.getV x).toNat = !want → t.pc = s.pc + 2) ∧ KeepsAllBut [.pc, .inputs] s t := by
  refine ⟨_, keySkip_of_le h, fun hk => ?_, fun hk => ?_, keeps_tookKeys_skipIf s _⟩
  · simp [keyDown, hk, BitVec.add_assoc]
  · simp [keyDown, hk]

/-- Settles O42: both instructions are `keySkip`, with the wanted flag 1 and 0. -/
theorem keySkips : Obligations.KeySkips := fun x _ =>
  ⟨⟨decode_fmtXS_E x _, keySkip_spec (.skp x) x true, keySkip_of_gt⟩,
   ⟨decode_fmtXS_E x _, keySkip_spec (.sknp x) x false, keySkip_of_gt⟩⟩

/-- Settles O44: the key reported is pressed under every choice, and the lowest one under `KEY_PICK = lowest`. -/
theorem waitForKey : Obligations.WaitForKey := by
  intro x s
  refine ⟨decode_fmtXS_F x _, fun h => ⟨_, exec_ldVxK_of_no_key h, rfl, ?_⟩, fun h => ⟨_, exec_ldVxK_of_key h, ?_⟩⟩
  · simp [keepsAllBut_iff]
  · let k := pickKey s.params.keyPick s.nextKeys
    refine ⟨⟨k.val, Nat.le_of_lt_succ k.isLt, pickKey_pressed _ _ h, ?_, fun hl j hj => ?_⟩, rfl,
      keepsRegs_setV x _ fun _ => rfl, keeps_tookKeys_setV s x _⟩
    · rw [State.getV_setV_same, BitVec.toNat_ofNat]
      omega
    · simp only [k, hl] at hj
      exact (lowestKey_spec s.nextKeys h).2 j hj

end Sys2Proof.Machine

/-! PROOFS. Memory and fetch (spec/20_memory.md): the bounds of a fetch, memory as its bytes, stored bytes as instructions, and
even addresses. -/


namespace Sys2Proof.Machine

/-! ### Fetch -/

/-- Settles O8: a fetch answers the big-endian pair exactly up to 4094, and the address out of range is `max(PC, 4096)`. -/
theorem fetchBounds : Obligations.FetchBounds := fun _ =>
  ⟨fun h => ⟨_, State.fetch_eq_ok.mpr ⟨h, rfl⟩, toNat_wordOfBytes _ _⟩,
   fun h => State.fetch_eq_error.mpr (by omega),
   fun h => State.fetch_eq_error.mpr (by omega)⟩

/-! ### A canonical memory is its bytes -/

/-- No address is listed twice, so every entry is the one that a read finds. -/
theorem Memory.read_of_mem {m : Memory} (hm : m.wf) {a : Nat} {w : Byte} (h : (a, w) ∈ m) : m.read a = w := by
  obtain ⟨hsorted, -⟩ := hm
  induction m with
  | nil => cases h
  | cons c rest ih =>
    obtain ⟨hlt, hrest⟩ := List.pairwise_cons.mp hsorted
    rcases List.mem_cons.mp h with rfl | h
    · exact if_pos rfl
    · have hne : c.1 ≠ a := Nat.ne_of_lt (hlt a (List.mem_map_of_mem h))
      exact (if_neg hne).trans (ih h hrest)

/-- The entries of a canonical memory are the bytes that differ from the reset content (log 11). -/
theorem Memory.mem_iff {m : Memory} (hm : m.wf) {a : Nat} {w : Byte} :
    (a, w) ∈ m ↔ m.read a = w ∧ w ≠ Memory.base a := by
  constructor
  · exact fun h => ⟨Memory.read_of_mem hm h, (hm.2 _ h).2⟩
  · rintro ⟨rfl, hne⟩
    obtain ⟨⟨b, u⟩, hc, rfl⟩ : ∃ c ∈ m, c.1 = a := by
      by_contra! hnone
      exact hne (Memory.base_of_not_mem hnone)
    rwa [Memory.read_of_mem hm hc]

/-- Two canonical memories with the same bytes list the same entries, both by rising address. -/
theorem Memory.ext_read {m n : Memory} (hm : m.wf) (hn : n.wf) (h : ∀ a : Nat, m.read a = n.read a) : m = n := by
  have : Std.Asymm fun c d : Host.Cell => c.1 < d.1 := InvImage.asymm Prod.fst
  have hmem : ∀ c : Host.Cell, c ∈ m ↔ c ∈ n := fun c => by rw [Memory.mem_iff hm, Memory.mem_iff hn, h]
  exact List.Pairwise.eq_of_mem_iff (List.pairwise_map.mp hm.1) (List.pairwise_map.mp hn.1) hmem

/-- Settles O41: the read after a write, and the extensionality of the canonical form. -/
theorem memoryIsItsBytes : Obligations.MemoryIsItsBytes := by
  refine ⟨fun m a b w ha => ⟨?_, fun hb => ?_⟩, fun _ _ => Memory.ext_read⟩
  · rw [Memory.read_write, if_pos ⟨rfl, ha⟩]
  · rw [Memory.read_write, if_neg fun h => hb h.1]

/-! ### Stored registers -/

theorem State.getD_regBytes (s : State) {n : Nat} {k : Reg} (h : k.val < n) (d : Byte) :
    (s.regBytes n).getD k.val d = s.getV k := by
  simp [State.regBytes, State.getV, Vector.get_eq_getElem, h]

theorem exec_storeRegs {x : Reg} {s : State} (h : s.i.toNat + x.val ≤ 4095) : exec (.storeRegs x) s =
    .next (s.advance.setMem (s.mem.writeBytes (s.ea 0) (s.regBytes (x.val + 1)))) := by
  have hr : s.rangeFault (x.val + 1) = none := State.rangeFault_eq_none.mpr (by omega)
  simp only [exec, execStoreRegs, hr]

/-- After Fx55 the byte at `I + k` is `V[k]` (R154). -/
theorem read_storedRegs {x k : Reg} {s : State} (h : s.i.toNat + x.val ≤ 4095) (hk : k ≤ x) :
    (s.mem.writeBytes (s.ea 0) (s.regBytes (x.val + 1))).read (s.ea k.val) = s.getV k := by
  have hkx : k.val ≤ x.val := hk
  have ha : s.ea 0 ≤ s.ea k.val ∧ s.ea k.val < memSize := by simp only [State.ea, memSize]; omega
  have hd : s.ea k.val - s.ea 0 = k.val := by simp only [State.ea]; omega
  rw [Memory.read_writeBytes, if_pos ha, hd, State.getD_regBytes s (Nat.lt_succ_of_le hkx)]

/-- Settles O40: a fetch depends only on PC and memory, and the two bytes there are the stored registers. -/
theorem storeSeenByFetch : Obligations.StoreSeenByFetch := by
  intro x k l s h hl hlx
  refine ⟨_, exec_storeRegs h, fun u hmem hpc => State.fetch_eq_ok.mpr ?_⟩
  have hlv : l.val ≤ x.val := hlx
  have hkx : k ≤ x := Fin.le_def.mpr (by omega)
  have hnext : s.ea k.val + 1 = s.ea l.val := by rw [hl]; rfl
  constructor
  · rw [hpc, State.ea]
    omega
  · rw [hmem, hpc, hnext, State.setMem_mem, read_storedRegs h hkx, read_storedRegs h hlx]
    rfl

/-! ### Even addresses -/

theorem add_two_even {w : Word} (h : w.toNat % 2 = 0) : (w + 2).toNat % 2 = 0 := by bv_omega

/-- Every place where an instruction can leave PC is even: the successors of PC, a return address, or a target of its own. -/
theorem nextPcs_even {s : State} {i : Instr} {w : Word} (hs : s.Even) (hi : TargetEven s i) (hw : w ∈ nextPcs s i) :
    w.toNat % 2 = 0 := by
  have h2 : (s.pc + 2).toNat % 2 = 0 := add_two_even hs.pcEven
  cases i with
  | ret =>
    obtain rfl := List.mem_singleton.mp hw
    exact hs.stackEven _
  | jp nnn | call nnn =>
    obtain rfl := List.mem_singleton.mp hw
    rwa [toNat_addrImm]
  | jpV0 nnn =>
    obtain rfl := List.mem_singleton.mp hw
    rwa [toNat_offsetTarget]
  | seImm | sneImm | seReg | sneReg | skp | sknp =>
    rcases List.mem_pair.mp hw with rfl | rfl
    · exact h2
    · exact add_two_even h2
  | ldVxK =>
    rcases List.mem_pair.mp hw with rfl | rfl
    · exact h2
    · exact hs.pcEven
  | _ =>
    obtain rfl := List.mem_singleton.mp hw
    exact h2

theorem Completed.even {s t : State} {i : Instr} (h : Completed s i t) (hs : s.Even) (hi : TargetEven s i) : t.Even where
  pcEven := nextPcs_even hs hi h.pc
  stackEven := by
    intro k
    have hk := hs.stackEven k
    obtain hst | ⟨_, hst⟩ := h.stack
    · rwa [hst]
    · rw [Vector.get_eq_getElem] at hk
      rw [hst, Vector.get_eq_getElem, Vector.getElem_set]
      split
      · exact add_two_even hs.pcEven
      · exact hk

/-- Settles O52: a failure leaves PC and the stack as they are; a completed instruction goes to an even address and pushes PC + 2. -/
theorem evenAddressesStayEven : Obligations.EvenAddressesStayEven := by
  intro i s t hs hi h
  rcases exec_next_cases h with ⟨_, _, -, rfl⟩ | hc
  · exact ⟨hs.pcEven, hs.stackEven⟩
  · exact hc.even hs hi

end Sys2Proof.Machine

/-! PROOFS. Encoding (spec/30_encoding.md): decoder and encoder are inverse, and both follow the opcode map of R66; the
coupled cycle runs what it decodes; the shifts of 8xy6 and 8xyE. -/

namespace Sys2Proof.Machine

/-! ### Decoding the word of an instruction -/

theorem decode_fmtXYN_8 (x y : Reg) (sel : BitVec 4) : decode (fmtXYN 0x8#4 x y sel) = decode8 sel x y := by
  simp [decode]

/-- Settles O1: the fields of a word are those it was built from, and its selector picks the instruction. -/
theorem decodeOfEncode : Obligations.DecodeOfEncode := by
  intro i
  cases i with
  | cls | ret => rfl
  | ldReg x y | orReg x y | andReg x y | xorReg x y | addReg x y | sub x y | shr x y | subn x y | shl x y =>
    exact decode_fmtXYN_8 x y _
  | skp x | sknp x => exact decode_fmtXS_E x _
  | ldVxDT x | ldVxK x | ldDTVx x | ldSTVx x | addI x | ldF x | ldB x | storeRegs x | loadRegs x =>
    exact decode_fmtXS_F x _
  | jp | call | seImm | sneImm | seReg | ldImm | addImm | sneReg | ldI | jpV0 | rnd | drw => simp [encode, decode]

/-! ### The word of a decoded instruction -/

section
variable {op : Word} {g n : BitVec 4}

theorem fmtNNN_fields (hg : fieldG op = g) : fmtNNN g (fieldNNN op) = op := by
  apply BitVec.eq_of_toNat_eq
  rw [← hg, toNat_fmtNNN, toNat_fieldG, toNat_fieldNNN]
  omega

theorem fmtXKK_fields (hg : fieldG op = g) : fmtXKK g (fieldX op) (fieldKK op) = op := by
  apply BitVec.eq_of_toNat_eq
  rw [← hg, toNat_fmtXKK, toNat_fieldG, val_fieldX, toNat_fieldKK]
  omega

theorem fmtXYN_fields (hg : fieldG op = g) (hn : fieldN op = n) : fmtXYN g (fieldX op) (fieldY op) n = op := by
  apply BitVec.eq_of_toNat_eq
  rw [← hg, ← hn, toNat_fmtXYN, toNat_fieldG, val_fieldX, val_fieldY, toNat_fieldN]
  omega

end

theorem encode_of_decode0 {op : Word} {i : Instr} (h : decode0 op = some i) : encode i = op := by
  unfold decode0 at h
  split_ifs at h <;> cases h <;> exact Eq.symm ‹_›

theorem encode_of_decode8 {sel : BitVec 4} {x y : Reg} {i : Instr} (h : decode8 sel x y = some i) :
    encode i = fmtXYN 0x8#4 x y sel := by
  unfold decode8 at h
  split at h <;> cases h <;> rfl

theorem encode_of_decodeE {sel : Byte} {x : Reg} {i : Instr} (h : decodeE sel x = some i) :
    encode i = fmtXKK 0xE#4 x sel := by
  unfold decodeE at h
  split at h <;> cases h <;> rfl

theorem encode_of_decodeF {sel : Byte} {x : Reg} {i : Instr} (h : decodeF sel x = some i) :
    encode i = fmtXKK 0xF#4 x sel := by
  unfold decodeF at h
  split at h <;> cases h <;> rfl

/-- Settles O2: along the groups of R63, the decoder puts every field of the word into the instruction. -/
theorem encodeOfDecode : Obligations.EncodeOfDecode := by
  intro op i h
  unfold decode at h
  split at h
  case h_1 => exact encode_of_decode0 h
  case h_2 hg | h_3 hg | h_11 hg | h_12 hg =>
    cases h
    exact fmtNNN_fields hg
  case h_4 hg | h_5 hg | h_7 hg | h_8 hg | h_13 hg =>
    cases h
    exact fmtXKK_fields hg
  case h_14 hg =>
    cases h
    exact fmtXYN_fields hg rfl
  case h_6 hg | h_10 hg =>
    split_ifs at h with hn
    cases h
    exact fmtXYN_fields hg hn
  case h_9 hg => exact (encode_of_decode8 h).trans (fmtXYN_fields hg rfl)
  case h_15 hg => exact (encode_of_decodeE h).trans (fmtXKK_fields hg)
  case h_16 =>
    have hg : fieldG op = 0xF#4 := by
      generalize fieldG op = g at *
      decide +revert
    exact (encode_of_decodeF h).trans (fmtXKK_fields hg)

/-! ### The opcode map -/

/-- The word of every instruction matches its row of R66. -/
theorem encode_and_mask (i : Instr) : encode i &&& (opcodeRow i).mask = (opcodeRow i).bits := by
  cases i with
  | cls => exact Laws.MatchesRow.cls
  | ret => exact Laws.MatchesRow.ret
  | jp nnn | call nnn | ldI nnn | jpV0 nnn => exact BitVec.eq_of_toNat_eq (fmtNNN_and _ nnn)
  | seImm x kk | sneImm x kk | ldImm x kk | addImm x kk | rnd x kk => exact BitVec.eq_of_toNat_eq (fmtXKK_and _ x kk)
  | drw x y n => exact Laws.MatchesRow.drw x y n
  | seReg x y | sneReg x y | ldReg x y | orReg x y | andReg x y | xorReg x y | addReg x y | sub x y | shr x y | subn x y
  | shl x y => exact BitVec.eq_of_toNat_eq (fmtXY_and _ x y _)
  | skp x | sknp x | ldVxDT x | ldVxK x | ldDTVx x | ldSTVx x | addI x | ldF x | ldB x | storeRegs x | loadRegs x =>
    exact BitVec.eq_of_toNat_eq (fmtXS_and _ x _)

section
variable {a b : Word}

theorem fieldG_of_and_F000 (h : a &&& 0xF000#16 = b &&& 0xF000#16) : fieldG a = fieldG b := by
  have hn := congrArg BitVec.toNat h
  rw [toNat_and_F000, toNat_and_F000] at hn
  apply BitVec.eq_of_toNat_eq
  rw [toNat_fieldG, toNat_fieldG]
  omega

theorem fields_of_and_F00F (h : a &&& 0xF00F#16 = b &&& 0xF00F#16) : fieldG a = fieldG b ∧ fieldN a = fieldN b := by
  have hn := congrArg BitVec.toNat h
  rw [toNat_and_F00F, toNat_and_F00F] at hn
  constructor <;> apply BitVec.eq_of_toNat_eq
  · rw [toNat_fieldG, toNat_fieldG]
    omega
  · rw [toNat_fieldN, toNat_fieldN]
    omega

theorem fields_of_and_F0FF (h : a &&& 0xF0FF#16 = b &&& 0xF0FF#16) : fieldG a = fieldG b ∧ fieldKK a = fieldKK b := by
  have hn := congrArg BitVec.toNat h
  rw [toNat_and_F0FF, toNat_and_F0FF] at hn
  constructor <;> apply BitVec.eq_of_toNat_eq
  · rw [toNat_fieldG, toNat_fieldG]
    omega
  · rw [toNat_fieldKK, toNat_fieldKK]
    omega

end

/-- A word that agrees with the word of `i` on the mask of its row has the same selectors, so it decodes in that row. -/
theorem exists_decode_of_match {op : Word} (i : Instr) (h : op &&& (opcodeRow i).mask = (opcodeRow i).bits) :
    ∃ j : Instr, decode op = some j ∧ opcodeRow j = opcodeRow i := by
  rw [← encode_and_mask i] at h
  cases i with
  | cls | ret =>
    obtain rfl : op = _ := (BitVec.and_allOnes (x := op)).symm.trans h
    exact ⟨_, rfl, rfl⟩
  | jp | call | ldI | jpV0 | seImm | sneImm | ldImm | addImm | rnd | drw =>
    simp [decode, fieldG_of_and_F000 h, encode, opcodeRow]
  | seReg | sneReg | ldReg | orReg | andReg | xorReg | addReg | sub | shr | subn | shl =>
    obtain ⟨hg, hn⟩ := fields_of_and_F00F h
    simp [decode, decode8, hg, hn, encode, opcodeRow]
  | skp | sknp | ldVxDT | ldVxK | ldDTVx | ldSTVx | addI | ldF | ldB | storeRegs | loadRegs =>
    obtain ⟨hg, hk⟩ := fields_of_and_F0FF h
    simp [decode, decodeE, decodeF, hg, hk, encode, fmtXS_eq, opcodeRow]

theorem opcodeRow_mem_opcodeTable (i : Instr) : opcodeRow i ∈ opcodeTable := by
  cases i <;> simp [opcodeRow, opcodeTable]

/-- Every row of R66 is the row of an instruction: of the one that its `match` decodes to. -/
theorem exists_opcodeRow_eq {r : OpcodeRow} (hr : r ∈ opcodeTable) : ∃ i : Instr, opcodeRow i = r := by
  have hall : ∀ r ∈ opcodeTable, (decode r.bits).map opcodeRow = some r := by decide
  obtain ⟨i, -, hi⟩ := Option.map_eq_some_iff.mp (hall r hr)
  exact ⟨i, hi⟩

theorem match_of_decode {op : Word} {i : Instr} (h : decode op = some i) :
    op &&& (opcodeRow i).mask = (opcodeRow i).bits :=
  encodeOfDecode op i h ▸ encode_and_mask i

/-- R66, row by row. -/
theorem match_iff_decode {op : Word} {r : OpcodeRow} (hr : r ∈ opcodeTable) :
    op &&& r.mask = r.bits ↔ ∃ i : Instr, decode op = some i ∧ opcodeRow i = r := by
  constructor
  · obtain ⟨i, rfl⟩ := exists_opcodeRow_eq hr
    exact exists_decode_of_match i
  · rintro ⟨i, hd, rfl⟩
    exact match_of_decode hd

/-- Settles O3: a word matches the row of its instruction and no other. -/
theorem decodeFollowsOpcodeMap : Obligations.DecodeFollowsOpcodeMap := by
  refine ⟨fun _ _ => match_iff_decode, fun op => ⟨fun hnone r hr hm => ?_, fun h => ?_⟩, ?_, rfl⟩
  · obtain ⟨i, hd, -⟩ := (match_iff_decode hr).mp hm
    cases hnone.symm.trans hd
  · exact Option.eq_none_iff_forall_ne_some.mpr fun i hd => h _ (opcodeRow_mem_opcodeTable i) (match_of_decode hd)
  · have hdistinct : opcodeTable.Pairwise (· ≠ ·) := by decide
    refine hdistinct.imp_of_mem fun hr hq hne op ⟨hmr, hmq⟩ => hne ?_
    obtain ⟨i, hi, rfl⟩ := (match_iff_decode hr).mp hmr
    obtain ⟨j, hj, rfl⟩ := (match_iff_decode hq).mp hmq
    rw [Option.some.inj (hi.symm.trans hj)]

/-! ### The cycle -/

theorem exec_answers_next (i : Instr) (s : State) : ∃ t : State, exec i s = .next t := by
  rcases exec_failsOrCompletes i s with ⟨k, a, -, h⟩ | ⟨t, -, h⟩
  · exact ⟨_, h⟩
  · exact ⟨t, h⟩

theorem params_not_mem_writesOf (i : Instr) : Part.params ∉ writesOf i := by cases i <;> simp [writesOf]

theorem exec_keeps_params {i : Instr} {s t : State} (h : exec i s = .next t) : t.params = s.params := by
  rcases exec_next_cases h with ⟨k, a, -, rfl⟩ | hc
  · rfl
  · exact hc.keeps .params (params_not_mem_writesOf i)

theorem State.endCycle_eq (t : State) :
    t.endCycle = if t.fault = none ∧ t.params.timerMode = .coupled then t.tick else t := by
  simp only [State.endCycle, Option.isNone_iff_eq_none]

theorem keeps_tick (s : State) : KeepsAllBut [.dt, .st] s s.tick := by simp [keepsAllBut_iff]

/-- A cycle that fetches the word of `i` answers what `i` left, with the tick after it (R70 steps 3 to 5). -/
theorem cycle_of_exec_next {s u : State} {op : Word} {i : Instr} (hop : s.fetch = .ok op) (hd : decode op = some i)
    (he : exec i s = .next u) : cycle s = .next u.endCycle := by
  simp only [cycle, hop, runWord, hd, he]

/-- Settles O7: `exec` answers a next state, and the end of the cycle is the tick of the statement. -/
theorem stepRunsDecoded : Obligations.StepRunsDecoded := by
  intro s i hf hm hpc hd
  obtain ⟨u, hu⟩ := exec_answers_next i s
  have hc := cycle_of_exec_next (State.fetch_eq_ok.mpr ⟨hpc, rfl⟩) hd hu
  rw [step_coupled hf hm, hc, hu, State.endCycle_eq]

/-- Settles O46: no instruction changes the timer mode, so only a latched failure keeps the cycle from ticking. -/
theorem coupledCycleTicks : Obligations.CoupledCycleTicks := by
  intro s u op i hf hm hop hd hu
  have hmu : u.params.timerMode = .coupled := exec_keeps_params hu ▸ hm
  have hstep : step s = .next u.endCycle := (step_coupled hf hm).trans (cycle_of_exec_next hop hd hu)
  rw [hstep, State.endCycle_eq]
  constructor
  · intro hok
    rw [if_pos ⟨hok, hmu⟩]
    exact ⟨u.tick, rfl, countDown_toNat _, countDown_toNat _, keeps_tick u⟩
  · intro hfail
    rw [if_neg fun h => hfail h.1]

/-! ### Shifts -/

theorem toNat_flagByte (b : Bool) : (flagByte b).toNat = b.toNat := by cases b <;> rfl

theorem toNat_lowBitFlag (a : Byte) : (lowBitFlag a).toNat = a.toNat % 2 := by
  rw [lowBitFlag, toNat_flagByte, BitVec.getLsbD, Nat.toNat_testBit, Nat.pow_zero, Nat.div_one]

theorem toNat_highBitFlag (a : Byte) : (highBitFlag a).toNat = a.toNat / 128 := by
  have := a.isLt
  rw [highBitFlag, toNat_flagByte, BitVec.getLsbD, Nat.toNat_testBit]
  omega

/-- The flag-writing rows of R100: VF written, then `V[x]`; `V[x]` reads as the second write left it, and VF keeps the flag
unless it is that register. -/
theorem setVF_setV_spec (s : State) (x : Reg) (f b : Byte) :
    let t := (s.advance.setVF f).setV x b
    t.getV x = b ∧ (x ≠ 15 → t.getV 15 = f) ∧ t.pc = s.pc + 2 ∧ KeepsRegs [x, 15] s t ∧ KeepsAllBut [.regs, .pc] s t := by
  have hc : Completed s (.sub x x) ((s.advance.setVF f).setV x b) := .setVF_setV f b rfl rfl rfl rfl
  refine ⟨State.getV_setV_same _ x b, fun hx => ?_, rfl, fun r hr => hc.regs r ?_, hc.keeps⟩
  · rw [State.getV_setV_ne _ _ _ _ (Ne.symm hx)]
    exact State.getV_setV_same _ _ f
  · simpa [regsOf, and_comm] using hr

/-- `V[x]` as the write of VF left it. -/
theorem toNat_getV_setVF (s : State) (x : Reg) (f : Byte) :
    ((s.advance.setVF f).getV x).toNat = if x = 15 then f.toNat else (s.getV x).toNat := by
  rw [State.setVF_eq, State.getV_setV]
  split <;> rfl

/-- Settles O21: the bit shifted out goes to VF, and the shift reads `V[x]` after that write (decision D3). -/
theorem shiftByOne : Obligations.ShiftByOne := by
  intro x y s
  constructor
  · obtain ⟨hx, hvf, hrest⟩ := setVF_setV_spec s x (lowBitFlag (s.getV x))
      ((s.advance.setVF (lowBitFlag (s.getV x))).getV x >>> 1)
    refine ⟨decodeOfEncode (.shr x y), _, rfl, ?_, fun h => ?_, hrest⟩
    · rw [hx, BitVec.toNat_ushiftRight, Nat.shiftRight_eq_div_pow, toNat_getV_setVF, toNat_lowBitFlag]
    · rw [hvf h, toNat_lowBitFlag]
  · obtain ⟨hx, hvf, hrest⟩ := setVF_setV_spec s x (highBitFlag (s.getV x))
      ((s.advance.setVF (highBitFlag (s.getV x))).getV x <<< 1)
    refine ⟨decodeOfEncode (.shl x y), _, rfl, ?_, fun h => ?_, hrest⟩
    · rw [hx, BitVec.toNat_shiftLeft, Nat.shiftLeft_eq, toNat_getV_setVF, toNat_highBitFlag, Nat.mul_comm]
    · rw [hvf h, toNat_highBitFlag]

end Sys2Proof.Machine

/-! PROOFS. Arithmetic and logic (spec/40_arith_logic.md): the rows that write one register, 8xy4 and Cxkk. -/

namespace Sys2Proof.Machine

/-! ### The rows that write one register and no flag -/

/-- The rows without a flag: `V[x]` reads as written, and nothing else but PC changes, VF included (R101 to R106). -/
theorem setV_spec (s : State) (x : Reg) (b : Byte) :
    let t := s.advance.setV x b
    t.getV x = b ∧ t.pc = s.pc + 2 ∧ KeepsRegs [x] s t ∧ KeepsAllBut [.regs, .pc] s t :=
  have hc : Completed s (.ldImm x b) (s.advance.setV x b) := .setV b rfl rfl rfl rfl
  ⟨State.getV_setV_same _ x b, rfl, hc.regs, hc.keeps⟩

/-- Settles O15: the byte written is `kk`. -/
theorem loadConstant : Obligations.LoadConstant := fun x kk s =>
  ⟨decodeOfEncode (.ldImm x kk), _, rfl, setV_spec s x kk⟩

/-- Settles O16: byte addition is addition modulo 256. -/
theorem addConstant : Obligations.AddConstant := by
  intro x kk s
  obtain ⟨hx, hrest⟩ := setV_spec s x (s.getV x + kk)
  refine ⟨decodeOfEncode (.addImm x kk), _, rfl, ?_, hrest⟩
  rw [hx, BitVec.toNat_add]

/-- Settles O17: the byte written is `V[y]`, read before the write. -/
theorem copyRegister : Obligations.CopyRegister := fun x y s =>
  ⟨decodeOfEncode (.ldReg x y), _, rfl, setV_spec s x (s.getV y)⟩

/-- Settles O18: the byte operations act bit by bit. -/
theorem bitwiseLogic : Obligations.BitwiseLogic := by
  intro x y s
  refine ⟨⟨decodeOfEncode (.orReg x y), ?_⟩, ⟨decodeOfEncode (.andReg x y), ?_⟩, decodeOfEncode (.xorReg x y), ?_⟩
  · obtain ⟨hx, hrest⟩ := setV_spec s x (s.getV x ||| s.getV y)
    exact ⟨_, rfl, fun k => by rw [hx, BitVec.getLsbD_or], hrest⟩
  · obtain ⟨hx, hrest⟩ := setV_spec s x (s.getV x &&& s.getV y)
    exact ⟨_, rfl, fun k => by rw [hx, BitVec.getLsbD_and], hrest⟩
  · obtain ⟨hx, hrest⟩ := setV_spec s x (s.getV x ^^^ s.getV y)
    exact ⟨_, rfl, fun k => by rw [hx, BitVec.getLsbD_xor], hrest⟩

/-! ### 8xy4 -/

theorem carryFlag_eq_ite (a b : Byte) : carryFlag a b = if a.toNat + b.toNat > 255 then 1 else 0 := by
  simp only [carryFlag, flagByte, decide_eq_true_eq]

/-- Settles O19: the sum is computed from the old registers and stored after VF, so it stays where `x = 15`. -/
theorem addWithCarry : Obligations.AddWithCarry := by
  intro x y s
  obtain ⟨hx, hvf, hrest⟩ := setVF_setV_spec s x (carryFlag (s.getV x) (s.getV y)) (s.getV x + s.getV y)
  refine ⟨decodeOfEncode (.addReg x y), _, rfl, ?_, fun h => ?_, hrest⟩
  · rw [hx, BitVec.toNat_add]
  · rw [hvf h, carryFlag_eq_ite]

/-! ### Cxkk -/

/-- Settles O23: the byte written is the draw masked by `kk`, and its clauses are facts of that mask. -/
theorem maskedRandom : Obligations.MaskedRandom := by
  intro x kk s
  have hc := rnd_completed x kk (s.nextRnd &&& kk) s
  have hx : (s.advance.tookRnd.setV x (s.nextRnd &&& kk)).getV x = s.nextRnd &&& kk := State.getV_setV_same _ x _
  refine ⟨decodeOfEncode (.rnd x kk), _, rfl, hx, ?_, fun hk => ?_, fun hk => ?_, rfl, rfl, hc.regs, hc.keeps⟩
  · rw [hx, BitVec.and_assoc, BitVec.and_not_self]
    exact BitVec.and_zero
  · rw [hx, hk]
    exact BitVec.and_zero
  · rw [hx, hk]
    exact BitVec.and_allOnes

end Sys2Proof.Machine

/-! PROOFS. Control flow (spec/41_control_flow.md): the jump, the skips, and a return after its call. -/

namespace Sys2Proof.Machine

/-! ### Call and return -/

/-- 2nnn with a stack that is not full: the entry at SP becomes the address after the call, and the others are kept (R122). -/
theorem exec_call_of_not_full (nnn : BitVec 12) {s : State} (h : s.sp.val < 16) : ∃ t, exec (.call nnn) s = .next t ∧
    t.stack.get ⟨s.sp.val, h⟩ = s.pc + 2 ∧ (∀ k : Fin 16, k.val ≠ s.sp.val → t.stack.get k = s.stack.get k) ∧
    t.sp.val = s.sp.val + 1 ∧ t.pc = addrImm nnn ∧ KeepsAllBut [.stack, .sp, .pc] s t := by
  cases hp : s.advance.push s.advance.pc with
  | none => exact absurd (State.push_eq_none.mp hp) h.ne
  | some t =>
    have he : exec (.call nnn) s = .next (t.setPc (addrImm nnn)) := by simp only [exec, execCall, hp]
    have hk : KeepsAllBut [.stack, .sp, .pc] s (t.setPc (addrImm nnn)) :=
      (((keeps_advance s).trans (keeps_push _ hp)).trans (keeps_setPc t _)).mono (by simp)
    obtain ⟨_, rfl⟩ := State.push_eq_some hp
    exact ⟨_, he, Vector.getElem_set_self h, fun k hne => Vector.getElem_set_ne h k.isLt (Ne.symm hne), rfl, rfl, hk⟩

/-- Settles O30: the call leaves `SP + 1`, so the return pops the one entry that the call wrote. -/
theorem callThenReturn : Obligations.CallThenReturn := by
  intro nnn s h
  obtain ⟨t, he, hentry, -, htsp, -⟩ := exec_call_of_not_full nnn h
  refine ⟨t, he, fun u husp hustack => ?_⟩
  have hsp : u.sp.val - 1 = s.sp.val := by rw [husp, htsp, Nat.add_sub_cancel]
  have hne : u.sp.val ≠ 0 := by rw [husp, htsp]; exact Nat.succ_ne_zero _
  obtain ⟨w, hw, hwsp, hpc, -, -, hk⟩ := exec_ret_of_nonempty hne
  refine ⟨w, hw, ?_, Fin.ext (hwsp.trans hsp), hk⟩
  calc w.pc = u.stack.get ⟨u.sp.val - 1, _⟩ := hpc
    _ = t.stack.get ⟨u.sp.val - 1, _⟩ := hustack _ hsp
    _ = t.stack.get ⟨s.sp.val, h⟩ := congrArg t.stack.get (Fin.ext hsp)
    _ = s.pc + 2 := hentry

/-! ### The jump -/

/-- Settles O24: the target is the address in the word, and the fetch there reads the memory that the jump left. -/
theorem jump : Obligations.Jump := by
  intro nnn s
  have hpc : (s.advance.setPc (addrImm nnn)).pc.toNat = nnn.toNat := toNat_addrImm nnn
  refine ⟨decodeOfEncode (.jp nnn), _, rfl, hpc, fun hn => ?_, fun hn => ?_, keeps_advance_setPc s _⟩
  · exact State.fetch_eq_ok.mpr (hpc ▸ ⟨Nat.le_of_lt_succ hn, rfl⟩)
  · refine State.fetch_eq_error.mpr ?_
    rw [hpc, hn]
    decide

/-! ### The skips -/

/-- What a skip leaves: PC + 4 where its condition holds, else PC + 2, and all else as it was (R120). -/
theorem skipIf_spec (s : State) (p : Prop) [Decidable p] :
    let t := s.advance.skipIf (decide p)
    (p → t.pc = s.pc + 4) ∧ (¬p → t.pc = s.pc + 2) ∧ KeepsAllBut [.pc] s t := by
  refine ⟨fun hp => ?_, fun hp => ?_, ((keeps_advance s).trans (keeps_skipIf _ _)).mono (by simp)⟩
  · rw [decide_eq_true hp, State.skipIf_true, State.setPc_pc, State.advance_pc, BitVec.add_assoc]
    rfl
  · rw [decide_eq_false hp, State.skipIf_false, State.advance_pc]

/-- The same for a skip on a difference: PC + 2 where `a` and `b` are equal, else PC + 4. -/
theorem skipIf_ne_spec (s : State) (a b : Byte) :
    let t := s.advance.skipIf (decide (a ≠ b))
    (a = b → t.pc = s.pc + 2) ∧ (a ≠ b → t.pc = s.pc + 4) ∧ KeepsAllBut [.pc] s t :=
  have ⟨hskip, hnext, hk⟩ := skipIf_spec s (a ≠ b)
  ⟨fun h => hnext (not_not_intro h), hskip, hk⟩

/-- Settles O27: 3xkk skips on `V[x] = kk`, 4xkk on its negation. -/
theorem skipOnConstant : Obligations.SkipOnConstant := fun x kk s =>
  ⟨⟨decodeOfEncode (.seImm x kk), _, rfl, skipIf_spec s (s.getV x = kk)⟩,
   decodeOfEncode (.sneImm x kk), _, rfl, skipIf_ne_spec s (s.getV x) kk⟩

/-- Settles O28: 5xy0 skips on `V[x] = V[y]`, 9xy0 on its negation. -/
theorem skipOnRegisters : Obligations.SkipOnRegisters := fun x y s =>
  ⟨⟨decodeOfEncode (.seReg x y), _, rfl, skipIf_spec s (s.getV x = s.getV y)⟩,
   decodeOfEncode (.sneReg x y), _, rfl, skipIf_ne_spec s (s.getV x) (s.getV y)⟩

end Sys2Proof.Machine

/-! PROOFS. The display (spec/42_draw_display.md): what 00E0 leaves, and that no other instruction but Dxyn reads or writes
it. -/

namespace Sys2Proof.Machine

/-- Settles O32: the display written is the clear one, and 00E0 completes within its write set. -/
theorem clearDisplay : Obligations.ClearDisplay := fun s =>
  ⟨decodeOfEncode .cls, _, rfl, fun q p _ _ => Display.pixel_clear q p, rfl, (cls_completed s).keeps⟩

/-! ### A state with another display -/

section
variable (s : State) (d : Display)

theorem State.skipIf_setDisp (c : Bool) : (s.setDisp d).skipIf c = (s.skipIf c).setDisp d := by cases c <;> rfl

theorem State.setRegs_setDisp (k : Nat) (bs : List Byte) : (s.setDisp d).setRegs k bs = (s.setRegs k bs).setDisp d := by
  induction bs generalizing s k with
  | nil => rfl
  | cons b bs ih =>
    rw [State.setRegs, State.setRegs, ← ih]
    split <;> rfl

theorem State.push_setDisp (w : Word) : (s.setDisp d).push w = (s.push w).map (·.setDisp d) := by
  rw [State.push, State.push, apply_dite (Option.map _)]
  rfl

theorem State.pop_setDisp : (s.setDisp d).pop = s.pop.map fun r => (r.1, r.2.setDisp d) := by
  rw [State.pop, State.pop, apply_dite (Option.map _)]
  rfl

theorem State.rangeFault_setDisp (n : Nat) : (s.setDisp d).rangeFault n = s.rangeFault n := rfl

end

/-! ### The outcome of a state with another display -/

/-- The same answer, with the display `d` in the next state. -/
def withDisp (d : Display) : Outcome → Outcome
  | .next t => .next (t.setDisp d)
  | .fault r => .fault r
  | .refused r => .refused r

section
variable (s : State) (d : Display)

theorem execRet_setDisp : execRet (s.setDisp d) = withDisp d (execRet s) := by
  have hp : (s.setDisp d).advance.pop = s.advance.pop.map fun r => (r.1, r.2.setDisp d) := s.advance.pop_setDisp d
  rw [execRet, execRet, hp]
  cases s.advance.pop <;> rfl

theorem execCall_setDisp (nnn : BitVec 12) : execCall nnn (s.setDisp d) = withDisp d (execCall nnn s) := by
  have hp : (s.setDisp d).advance.push (s.setDisp d).advance.pc = (s.advance.push s.advance.pc).map (·.setDisp d) :=
    s.advance.push_setDisp d _
  rw [execCall, execCall, hp]
  cases s.advance.push s.advance.pc <;> rfl

theorem keySkip_setDisp (i : Instr) (x : Reg) (want : Bool) :
    keySkip i x want (s.setDisp d) = withDisp d (keySkip i x want s) := by
  by_cases h : (s.getV x).toNat ≤ 15
  · rw [keySkip_of_le h, keySkip_of_le (s := s.setDisp d) h]
    exact congrArg _ (s.advance.tookKeys.skipIf_setDisp d _)
  · have h := Nat.lt_of_not_le h
    rw [keySkip_of_gt h, keySkip_of_gt (s := s.setDisp d) h]
    rfl

theorem exec_ldVxK_setDisp (x : Reg) : exec (.ldVxK x) (s.setDisp d) = withDisp d (exec (.ldVxK x) s) := by
  by_cases h : s.nextKeys = 0
  · rw [exec_ldVxK_of_no_key h, exec_ldVxK_of_no_key (s := s.setDisp d) h]
    rfl
  · rw [exec_ldVxK_of_key h, exec_ldVxK_of_key (s := s.setDisp d) h]
    rfl

theorem execLdB_setDisp (x : Reg) : execLdB x (s.setDisp d) = withDisp d (execLdB x s) := by
  rw [execLdB, execLdB, State.rangeFault_setDisp]
  cases s.rangeFault 3 <;> rfl

theorem execStoreRegs_setDisp (x : Reg) : execStoreRegs x (s.setDisp d) = withDisp d (execStoreRegs x s) := by
  rw [execStoreRegs, execStoreRegs, State.rangeFault_setDisp]
  cases s.rangeFault (x.val + 1) <;> rfl

theorem execLoadRegs_setDisp (x : Reg) : execLoadRegs x (s.setDisp d) = withDisp d (execLoadRegs x s) := by
  rw [execLoadRegs, execLoadRegs, State.rangeFault_setDisp]
  cases s.rangeFault (x.val + 1) with
  | some a => rfl
  | none => exact congrArg Host.Outcome.next (s.advance.setRegs_setDisp d 0 _)

/-- No instruction but 00E0 and Dxyn reads or writes the display: run from another one, it answers the same with that one. -/
theorem exec_setDisp {i : Instr} (hdrw : ∀ x y n, i ≠ .drw x y n) (hcls : i ≠ .cls) :
    exec i (s.setDisp d) = withDisp d (exec i s) := by
  cases i with
  | cls => exact absurd rfl hcls
  | drw x y n => exact absurd rfl (hdrw x y n)
  | ret => exact execRet_setDisp s d
  | call nnn => exact execCall_setDisp s d nnn
  | seImm | sneImm | seReg | sneReg => exact congrArg Host.Outcome.next (s.advance.skipIf_setDisp d _)
  | skp x | sknp x => exact keySkip_setDisp s d _ x _
  | ldVxK x => exact exec_ldVxK_setDisp s d x
  | ldB x => exact execLdB_setDisp s d x
  | storeRegs x => exact execStoreRegs_setDisp s d x
  | loadRegs x => exact execLoadRegs_setDisp s d x
  | jp | jpV0 => rfl
  | ldImm | addImm | ldReg | orReg | andReg | xorReg | addReg | sub | shr | subn | shl | rnd | ldVxDT => rfl
  | ldI | addI | ldF | ldDTVx | ldSTVx => rfl

end

section
variable {i : Instr} {s t : State} (hdrw : ∀ x y n, i ≠ .drw x y n) (hcls : i ≠ .cls) (h : exec i s = .next t)
include hdrw hcls h

theorem exec_setDisp_of_next (d : Display) : exec i (s.setDisp d) = .next (t.setDisp d) :=
  (exec_setDisp s d hdrw hcls).trans (congrArg (withDisp d) h)

/-- With its own display put back the state is unchanged, so an instruction that answers alike under every display keeps it. -/
theorem exec_keeps_disp : t.disp = s.disp := by
  have hself : exec i s = .next (t.setDisp s.disp) := exec_setDisp_of_next hdrw hcls h s.disp
  have ht : t = t.setDisp s.disp := Host.Outcome.next.inj (h.symm.trans hself)
  calc t.disp = (t.setDisp s.disp).disp := congrArg State.disp ht
    _ = s.disp := rfl

end

/-! ### Dxyn under another display -/

theorem exec_drw_of_rangeFault {x y : Reg} {n : BitVec 4} {s : State} {a : Nat} (h : s.rangeFault n.toNat = some a) :
    exec (.drw x y n) s = raise s .outOfBounds (some (encode (.drw x y n))) (some a) := by
  simp only [exec, execDrw, h]

/-- Dxyn in bounds: the sprite drawn at the anchor, and VF the collision (R141). -/
theorem exec_drw_of_inBounds {x y : Reg} {n : BitVec 4} {s : State} (h : s.rangeFault n.toNat = none) :
    let r := s.disp.xorSprite (anchorY (s.getV y)) (anchorX (s.getV x)) (s.mem.readBytes (s.ea 0) n.toNat)
    exec (.drw x y n) s = .next ((s.advance.setDisp r.1).setVF (collisionFlag r.2)) := by
  simp only [exec, execDrw, h]

/-- Two writes of the display and of VF to one state differ at most there. -/
theorem keeps_setDisp_setVF (s : State) (d e : Display) (b c : Byte) :
    KeepsRegs [15] ((s.setDisp d).setVF b) ((s.setDisp e).setVF c) ∧
      KeepsAllBut [.regs, .disp] ((s.setDisp d).setVF b) ((s.setDisp e).setVF c) := by
  refine ⟨fun r hr => ?_, by simp [keepsAllBut_iff]⟩
  have hne : r ≠ flagReg := by simpa using hr
  rw [State.setVF_eq, State.setVF_eq, State.getV_setV_ne _ _ _ _ hne, State.getV_setV_ne _ _ _ _ hne]
  rfl

/-- The bounds of a draw do not depend on the display, and a draw in bounds writes only DISP, VF and PC. -/
theorem exec_drw_setDisp {x y : Reg} {n : BitVec 4} {s t : State} (d : Display) (h : exec (.drw x y n) s = .next t) :
    Completes (.drw x y n) (s.setDisp d) fun u => KeepsRegs [15] t u ∧ KeepsAllBut [.regs, .disp] t u := by
  cases hf : s.rangeFault n.toNat with
  | some a =>
    obtain rfl := Host.Outcome.next.inj ((exec_drw_of_rangeFault hf).symm.trans h)
    have hk := keeps_setDisp (s.latch .outOfBounds (some (encode (.drw x y n))) (some a)) d
    exact ⟨_, exec_drw_of_rangeFault (s := s.setDisp d) hf, .of_keeps hk (by simp) _, hk.mono (by simp)⟩
  | none =>
    obtain rfl := Host.Outcome.next.inj ((exec_drw_of_inBounds hf).symm.trans h)
    exact ⟨_, exec_drw_of_inBounds (s := s.setDisp d) hf, keeps_setDisp_setVF s.advance _ _ _ _⟩

/-! ### The display is isolated -/

/-- Settles O35: 00E0 overwrites whatever display there was, Dxyn lets it through only to VF, and the rest never use it. -/
theorem displayIsIsolated : Obligations.DisplayIsIsolated := by
  refine ⟨fun i s t d hdrw h => ⟨fun hcls => exec_keeps_disp hdrw hcls h, ?_⟩, fun _ _ _ _ _ d h => exec_drw_setDisp d h⟩
  by_cases hcls : i = .cls
  · subst hcls
    exact h
  · rw [if_neg hcls]
    exact exec_setDisp_of_next hdrw hcls h d

end Sys2Proof.Machine

/-! PROOFS. Index register and memory (spec/43_index_memory.md): the rows that write I. -/

namespace Sys2Proof.Machine

/-! ### The rows that write I -/

theorem toNat_indexSum (i : Word) (v : Byte) : (indexSum i v).toNat = (i.toNat + v.toNat) % 65536 := by
  rw [indexSum, BitVec.toNat_add, BitVec.toNat_setWidth_of_le (by decide)]

/-- The largest glyph address, `0x050 + 5 * 255`, is below 65536, so the sum is not reduced (R152; log 31). -/
theorem toNat_glyphAddr (v : Byte) : (glyphAddr v).toNat = 0x050 + 5 * v.toNat := by
  have := v.isLt
  have hlt : 0x050 + 5 * v.toNat < 2 ^ 16 := by omega
  rw [glyphAddr, fontBase, glyphBytes, BitVec.toNat_ofNat, Nat.mod_eq_of_lt hlt]

/-- The rows that write I: I reads as the number of the word written, and nothing else but PC changes, VF included
(R150 to R152). -/
theorem setI_spec (s : State) {w : Word} {n : Nat} (hw : w.toNat = n) :
    let t := s.advance.setI w
    t.i.toNat = n ∧ t.pc = s.pc + 2 ∧ KeepsAllBut [.index, .pc] s t :=
  ⟨hw, rfl, ((keeps_advance s).trans (keeps_setI _ w)).mono (by simp)⟩

/-- Settles O36: the word written is the immediate, the sum modulo 65536, or the glyph address, in that order. -/
theorem indexWrites : Obligations.IndexWrites :=
  ⟨fun nnn s => ⟨decodeOfEncode (.ldI nnn), _, rfl, setI_spec s (toNat_addrImm nnn)⟩, fun x s =>
    ⟨⟨decodeOfEncode (.addI x), _, rfl, setI_spec s (toNat_indexSum s.i (s.getV x))⟩,
     decodeOfEncode (.ldF x), _, rfl, setI_spec s (toNat_glyphAddr (s.getV x))⟩⟩

end Sys2Proof.Machine

/-! PROOFS. Timers and input (spec/44_timer_input.md): the rows that read and write the timers. -/

namespace Sys2Proof.Machine

/-! ### The end of a coupled cycle -/

section
variable {t : State} (hf : t.fault = none) (hm : t.params.timerMode = .coupled)
include hf hm

theorem endCycle_of_coupled : t.endCycle = t.tick := by rw [State.endCycle_eq, if_pos ⟨hf, hm⟩]

theorem toNat_dt_endCycle : t.endCycle.dt.toNat = t.dt.toNat - 1 := by
  rw [endCycle_of_coupled hf hm, State.tick_dt, countDown_toNat]

theorem toNat_st_endCycle : t.endCycle.st.toNat = t.st.toNat - 1 := by
  rw [endCycle_of_coupled hf hm, State.tick_st, countDown_toNat]

end

/-! ### Ticks and the sound -/

theorem soundOn_iff (s : State) : s.soundOn = true ↔ 0 < s.st.toNat := by
  rw [State.soundOn, decide_eq_true_eq, Nat.pos_iff_ne_zero, ne_eq, ← BitVec.toNat_inj]
  rfl

theorem toNat_st_iterate_tick (s : State) (j : Nat) : (State.tick^[j] s).st.toNat = s.st.toNat - j := by
  induction j with
  | zero => rfl
  | succ j ih => rw [Function.iterate_succ_apply', State.tick_st, countDown_toNat, ih, Nat.sub_sub]

/-- The sound lasts as many ticks as ST counts (R29, R175). -/
theorem soundOn_iterate_tick (s : State) (j : Nat) : (State.tick^[j] s).soundOn = true ↔ j < s.st.toNat := by
  rw [soundOn_iff, toNat_st_iterate_tick, Nat.sub_pos_iff_lt]

/-! ### Fx07, Fx15, Fx18 -/

/-- Settles O43: a write of a timer keeps the latch and the mode, so a coupled cycle ends with one tick of the value just
written; after Fx18 the sound is on while fewer ticks have passed than that value counts. -/
theorem timerAccess : Obligations.TimerAccess := by
  intro x s
  refine ⟨⟨decodeOfEncode (.ldVxDT x), ?_⟩, ⟨decodeOfEncode (.ldDTVx x), ?_⟩, decodeOfEncode (.ldSTVx x), ?_⟩
  · exact ⟨_, rfl, setV_spec s x s.dt⟩
  · exact ⟨_, rfl, rfl, rfl, (ldDTVx_completed x s).keeps, toNat_dt_endCycle (t := s.advance.setDT _)⟩
  · exact ⟨_, rfl, rfl, rfl, (ldSTVx_completed x s).keeps, toNat_st_endCycle (t := s.advance.setST _), soundOn_iterate_tick _⟩

end Sys2Proof.Machine

/-! PROOFS. Failures, halts and ticks (spec/60_exceptions.md): that every step answers, the tick, and the events of external mode. -/

namespace Sys2Proof.Machine

/-! ### Every step answers a next state -/

theorem cycle_answers_next (s : State) : ∃ t : State, cycle s = .next t := by
  rcases cycle_cases s with ⟨_, -, hc⟩ | ⟨_, -, -, hc⟩ | ⟨op, i, hop, hd, -⟩
  · exact ⟨_, hc⟩
  · exact ⟨_, hc⟩
  · obtain ⟨u, hu⟩ := exec_answers_next i s
    exact ⟨_, cycle_of_exec_next hop hd hu⟩

/-- Settles O14: a step leaves the state as it is, ticks, or is a cycle, and a cycle latches a record or ends an instruction. -/
theorem everythingAnswersNext : Obligations.EverythingAnswersNext := by
  refine ⟨exec_answers_next, fun s => ?_⟩
  rcases step_cases s with ⟨-, h⟩ | ⟨-, -, h⟩ | ⟨-, -, -, h⟩ | ⟨-, -, -, h⟩
  · exact ⟨_, h⟩
  · exact h ▸ cycle_answers_next s
  · exact ⟨_, h⟩
  · exact h ▸ cycle_answers_next s.tookEvent

/-! ### The tick -/

theorem countDown_zero : countDown 0 = 0 := rfl

/-- Settles O45: both timers count down, each on its own, and the tick's frame is all the rest. -/
theorem tickCountsDown : Obligations.TickCountsDown := fun s =>
  ⟨fun _ => countDown_toNat s.dt, fun h => (congrArg countDown h).trans countDown_zero,
   fun _ => countDown_toNat s.st, fun h => (congrArg countDown h).trans countDown_zero, keeps_tick s⟩

/-! ### The events of external mode -/

theorem keeps_tookEvent (s : State) : KeepsAllBut [.inputs] s s.tookEvent := by simp [keepsAllBut_iff]

theorem fetch_tookEvent (s : State) : s.tookEvent.fetch = s.fetch := rfl

theorem step_external_tick {s : State} (hf : s.fault = none) (hm : s.params.timerMode = .external)
    (ht : s.nextIsTick = true) : step s = .next s.tookEvent.tick := by
  rcases step_cases s with ⟨h, -⟩ | ⟨-, he, -⟩ | ⟨-, -, -, hc⟩ | ⟨-, -, he, -⟩
  · simp [State.Halted, hf] at h
  · simp [hm] at he
  · exact hc
  · simp [ht] at he

theorem endCycle_of_external {t : State} (hm : t.params.timerMode = .external) : t.endCycle = t := by
  rw [State.endCycle_eq, if_neg (by simp [hm])]

/-- A cycle of external mode that fetches the word of `i` is `exec i`, with no tick after it (R217). -/
theorem cycle_external {s : State} {op : Word} {i : Instr} (hm : s.params.timerMode = .external) (hop : s.fetch = .ok op)
    (hd : decode op = some i) : cycle s = exec i s := by
  obtain ⟨u, hu⟩ := exec_answers_next i s
  have hmu : u.params.timerMode = .external := exec_keeps_params hu ▸ hm
  rw [cycle_of_exec_next hop hd hu, endCycle_of_external hmu, hu]

theorem cycle_of_unknown {s : State} {op : Word} (hop : s.fetch = .ok op) (hd : decode op = none) :
    cycle s = .next (s.latch .unknownOpcode (some op) none) := by
  obtain ⟨hpc, rfl⟩ := State.fetch_eq_ok.mp hop
  exact cycle_of_decode_none hpc hd

theorem cycle_of_fetch_error {s : State} {a : Nat} (h : s.fetch = .error a) :
    cycle s = .next (s.latch .outOfBounds none (some a)) := by
  simp only [cycle, h, raise]

/-- Settles O47: taking the event changes neither the fetch nor what it reads, so the step's cycle is that of the word fetched
before it. -/
theorem externalTicks : Obligations.ExternalTicks := by
  intro s hf hm
  constructor
  · intro ht
    exact ⟨_, step_external_tick hf hm ht, countDown_toNat s.dt, countDown_toNat s.st,
      ((keeps_tookEvent s).trans (keeps_tick s.tookEvent)).mono (by simp)⟩
  · intro ht
    rw [step_external hf hm ht, ← fetch_tookEvent s]
    exact ⟨fun _ _ hop hd => cycle_external (s := s.tookEvent) hm hop hd, fun _ hop hd => cycle_of_unknown hop hd,
      fun _ ha => cycle_of_fetch_error ha⟩

end Sys2Proof.Machine

/-! PROOFS. Reset (spec/70_reset_and_hazards.md R230, R231): what a memory image holds, and the state after the reset event. -/

namespace Sys2Proof.Machine

/-! ### What a memory image holds -/

theorem fontTable_length : fontTable.length = fontSize := rfl

/-- The font ends below the ROM. -/
theorem fontEnd_le_programStart : fontBase + fontSize ≤ programStart := by decide

/-- The largest ROM ends with the memory. -/
theorem programStart_add_romMax : programStart + romMax = memSize := rfl

/-- Off the font's place the reset content is 0, past the end of memory too. -/
theorem Memory.base_eq_zero {a : Nat} (h : a < fontBase ∨ fontBase + fontSize ≤ a) : Memory.base a = 0 := by
  rw [Memory.base]
  split
  · rw [List.getD_eq_default]
    rw [fontTable_length]
    omega
  · rfl

/-- Bytes that were written and lie in memory read back. -/
theorem Memory.read_writeBytes_inside (m : Memory) {a k : Nat} {bs : List Byte} (hk : k < bs.length)
    (ha : a + bs.length ≤ memSize) : (m.writeBytes a bs).read (a + k) = bs.getD k 0 := by
  have hin : a ≤ a + k ∧ a + k < memSize := by omega
  rw [Memory.read_writeBytes, if_pos hin, Nat.add_sub_cancel_left, List.getD_eq_getElem _ _ hk, List.getD_eq_getElem _ _ hk]

section
variable {font rom : List Byte}

/-- The ROM lies above the font, so its copy keeps every font byte. -/
theorem Memory.read_image_font (hf : font.length = fontSize) {k : Nat} (hk : k < fontSize) :
    (Memory.image font rom).read (fontBase + k) = font.getD k 0 := by
  have hlayout := fontEnd_le_programStart
  have hend := programStart_add_romMax
  have hbelow : ¬(programStart ≤ fontBase + k ∧ fontBase + k < programStart + rom.length) := by omega
  rw [Memory.image, Memory.read_writeBytes_outside _ _ _ _ hbelow, Memory.read_writeBytes_inside _ (by omega) (by omega)]

theorem Memory.read_image_rom (hr : rom.length ≤ romMax) {k : Nat} (hk : k < rom.length) :
    (Memory.image font rom).read (programStart + k) = rom.getD k 0 :=
  Memory.read_writeBytes_inside _ hk (programStart_add_romMax ▸ Nat.add_le_add_left hr _)

/-- Neither copy reaches any other byte: it keeps the reset content, which is 0 off the font's place. -/
theorem Memory.read_image_other (hf : font.length = fontSize) {a : Nat}
    (ha : a < fontBase ∨ fontBase + fontSize ≤ a ∧ a < programStart ∨ programStart + rom.length ≤ a) :
    (Memory.image font rom).read a = 0 := by
  have hlayout := fontEnd_le_programStart
  have hrom : ¬(programStart ≤ a ∧ a < programStart + rom.length) := by omega
  have hfont : ¬(fontBase ≤ a ∧ a < fontBase + font.length) := by omega
  rw [Memory.image, Memory.read_writeBytes_outside _ _ _ _ hrom, Memory.read_writeBytes_outside _ _ _ _ hfont]
  exact Memory.base_eq_zero (by omega)

end

/-! ### The state after reset -/

theorem State.reset_getV (r : Reg) : State.reset.getV r = 0 := by simp [State.getV, State.reset, Vector.get_eq_getElem]

theorem State.reset_stack_get (k : Fin 16) : State.reset.stack.get k = 0 := by simp [State.reset, Vector.get_eq_getElem]

/-- Settles O53: every field but memory is that of `State.reset`, and memory is the image of the font and the ROM. -/
theorem resetState : Obligations.ResetState := by
  intro s font rom hfont hrom
  have hf : font.length = fontSize := of_decide_eq_true hfont
  have hr : rom.length ≤ romMax := of_decide_eq_true hrom
  exact ⟨State.reset_getV, rfl, rfl, rfl, State.reset_stack_get, rfl, rfl, rfl, rfl, Display.pixel_clear,
    fun _ => Memory.read_image_font hf, fun _ => Memory.read_image_rom hr, fun _ => Memory.read_image_other hf⟩

end Sys2Proof.Machine

/-! PROOFS. Failures (spec/60_exceptions.md): which instruction raises what, and that a step that fails changes the latch alone. -/

namespace Sys2Proof.Machine

/-! ### Which instruction raises what -/

/-- An instruction raises each failure that `Fails` lists for it. -/
theorem exec_of_fails {i : Instr} {s : State} {k : FailureKind} {a : Option Nat} (h : Fails s i k a) :
    exec i s = raise s k (some (encode i)) a := by
  cases h with
  | ret h => exact exec_ret_of_empty h
  | call nnn h =>
    have hp : s.advance.push s.advance.pc = none := State.push_eq_none.mpr h
    simp only [exec, execCall, hp]
  | drw x y n a h => exact exec_drw_of_rangeFault h
  | ldB x a h => simp only [exec, execLdB, h]
  | storeRegs x a h => simp only [exec, execStoreRegs, h]
  | loadRegs x a h => simp only [exec, execLoadRegs, h]
  | skp x h => exact keySkip_of_gt h
  | sknp x h => exact keySkip_of_gt h

/-- A latched record names the kind and operands it was latched with, and nothing but the latch has changed (R200). -/
theorem State.latch_frame {s t : State} {k : FailureKind} {o : Option Word} {a : Option Nat} {f : FailureRecord}
    (h : t = s.latch k o a) (hf : t.fault = some f) : f = ⟨k, o, s.pc, a⟩ ∧ t = { s with fault := some f } := by
  subst h
  obtain rfl := Option.some.inj hf
  exact ⟨rfl, rfl⟩

/-- An instruction that latches a record in a running core raised one of its failures. -/
theorem fails_of_exec_latches {i : Instr} {s t : State} {f : FailureRecord} (hs : s.fault = none) (h : exec i s = .next t)
    (hf : t.fault = some f) :
    ∃ k a, Fails s i k a ∧ f = ⟨k, some (encode i), s.pc, a⟩ ∧ t = { s with fault := some f } := by
  rcases exec_next_cases h with ⟨k, a, hfail, ht⟩ | hc
  · exact ⟨k, a, hfail, State.latch_frame ht hf⟩
  · have hk : t.fault = s.fault := hc.keeps .fault (fault_not_mem_writesOf i)
    simp [hk, hs] at hf

/-- Settles O13: the failures of `Fails`, with the bounds of each access written in numbers. -/
theorem whichInstructionRaisesWhat : Obligations.WhichInstructionRaisesWhat := by
  intro i s t f hs h hf
  obtain ⟨k, a, hfail, rfl, -⟩ := fails_of_exec_latches hs h hf
  refine ⟨rfl, rfl, ?_⟩
  cases hfail with
  | call nnn hsp => exact .inl ⟨nnn, rfl, hsp, rfl, rfl⟩
  | ret hsp => exact .inr (.inl ⟨rfl, hsp, rfl, rfl⟩)
  | drw x y n a hr =>
    obtain ⟨hn, hlt, rfl⟩ := State.rangeFault_eq_some.mp hr
    exact .inr (.inr (.inl ⟨x, y, n, rfl, fun h0 => hn (congrArg BitVec.toNat h0), by omega, rfl, rfl⟩))
  | ldB x a hr =>
    obtain ⟨-, hlt, rfl⟩ := State.rangeFault_eq_some.mp hr
    exact .inr (.inr (.inr (.inl ⟨x, rfl, by omega, rfl, rfl⟩)))
  | storeRegs x a hr =>
    obtain ⟨-, hlt, rfl⟩ := State.rangeFault_eq_some.mp hr
    exact .inr (.inr (.inr (.inr (.inl ⟨x, .inl rfl, by omega, rfl, rfl⟩))))
  | loadRegs x a hr =>
    obtain ⟨-, hlt, rfl⟩ := State.rangeFault_eq_some.mp hr
    exact .inr (.inr (.inr (.inr (.inl ⟨x, .inr rfl, by omega, rfl, rfl⟩))))
  | skp x hx => exact .inr (.inr (.inr (.inr (.inr ⟨x, .inl rfl, hx, rfl, rfl⟩))))
  | sknp x hx => exact .inr (.inr (.inr (.inr (.inr ⟨x, .inr rfl, hx, rfl, rfl⟩))))

/-! ### A cycle that fails -/

theorem endCycle_of_failed {t : State} (h : t.fault ≠ none) : t.endCycle = t := by
  rw [State.endCycle_eq, if_neg fun hok => h hok.1]

theorem fault_endCycle (t : State) : t.endCycle.fault = t.fault := by
  rw [State.endCycle_eq]
  split <;> rfl

/-- A cycle that latches a record changes nothing but the latch: the fetch and the decoder raise in the state itself, and an
instruction that fails has no tick after it (R200; decision D4). -/
theorem cycle_latches_only {s t : State} {f : FailureRecord} (hs : s.fault = none) (h : cycle s = .next t)
    (hf : t.fault = some f) : f.pc = s.pc ∧ t = { s with fault := some f } := by
  rcases cycle_cases s with ⟨a, -, hc⟩ | ⟨op, -, -, hc⟩ | ⟨op, i, hop, hd, -⟩
  · obtain ⟨rfl, ht⟩ := State.latch_frame (Host.Outcome.next.inj (h.symm.trans hc)) hf
    exact ⟨rfl, ht⟩
  · obtain ⟨rfl, ht⟩ := State.latch_frame (Host.Outcome.next.inj (h.symm.trans hc)) hf
    exact ⟨rfl, ht⟩
  · obtain ⟨u, hu⟩ := exec_answers_next i s
    obtain rfl := Host.Outcome.next.inj ((cycle_of_exec_next hop hd hu).symm.trans h)
    rw [fault_endCycle] at hf
    obtain ⟨k, a, -, rfl, hlatch⟩ := fails_of_exec_latches hs hu hf
    exact ⟨rfl, (endCycle_of_failed (by simp [hf])).trans hlatch⟩

/-- Settles O11: a step that latches a record is a cycle that failed, in external mode one after the event was taken. -/
theorem failedCycleChangesOnlyTheLatch : Obligations.FailedCycleChangesOnlyTheLatch := by
  intro s t f hs h hf
  rcases step_cases s with ⟨hh, -⟩ | ⟨-, hm, hc⟩ | ⟨-, -, -, hc⟩ | ⟨-, hm, -, hc⟩
  · simp [State.Halted, hs] at hh
  · rw [if_pos hm]
    exact cycle_latches_only hs (hc.symm.trans h) hf
  · obtain rfl := Host.Outcome.next.inj (hc.symm.trans h)
    simp [hs] at hf
  · rw [if_neg (by simp [hm])]
    exact cycle_latches_only (s := s.tookEvent) hs (hc.symm.trans h) hf

/-- Settles O9: the fetch fails in the state itself, or in the state after the event was taken. -/
theorem fetchFailureHalts : Obligations.FetchFailureHalts := by
  intro s hf hpc
  have herr : s.fetch = .error (max s.pc.toNat 4096) := State.fetch_eq_error.mpr ⟨hpc, rfl⟩
  exact ⟨fun hm => (step_coupled hf hm).trans (cycle_of_fetch_error herr),
    fun hm ht => (step_external hf hm ht).trans (cycle_of_fetch_error (s := s.tookEvent) herr)⟩

end Sys2Proof.Machine

/-! PROOFS. Encoding (spec/30_encoding.md): the words that decode to nothing. -/

namespace Sys2Proof.Machine

/-! ### Words that decode to nothing -/

theorem decode0_eq_none {op : Word} : decode0 op = none ↔ op ≠ 0x00E0#16 ∧ op ≠ 0x00EE#16 := by
  unfold decode0
  split_ifs <;> simp_all

theorem decode8_eq_none {sel : BitVec 4} {x y : Reg} : decode8 sel x y = none ↔ 8 ≤ sel.toNat ∧ sel.toNat ≠ 0xE := by
  unfold decode8
  split
  case h_10 =>
    generalize sel = k at *
    decide +revert
  all_goals simp

theorem decodeE_eq_none {sel : Byte} {x : Reg} : decodeE sel x = none ↔ sel.toNat ≠ 0x9E ∧ sel.toNat ≠ 0xA1 := by
  unfold decodeE
  split <;> simp_all [← BitVec.toNat_inj]

theorem decodeF_eq_none {sel : Byte} {x : Reg} :
    decodeF sel x = none ↔ sel.toNat ∉ [0x07, 0x0A, 0x15, 0x18, 0x1E, 0x29, 0x33, 0x55, 0x65] := by
  unfold decodeF
  split <;> simp_all [← BitVec.toNat_inj]

theorem decode_eq_some_iff {op : Word} {i : Instr} : decode op = some i ↔ op = encode i :=
  ⟨fun h => (encodeOfDecode op i h).symm, fun h => h ▸ decodeOfEncode i⟩

/-- Settles O4: group 0 selects on the whole word, groups 5 and 9 ask for a low nibble of 0. -/
theorem strictGroups : Obligations.StrictGroups := by
  refine ⟨fun op h => ⟨decode_eq_some_iff, decode_eq_some_iff, ?_⟩, fun x y n hn => ?_⟩
  · have hg : fieldG op = 0x0#4 := BitVec.eq_of_toNat_eq ((toNat_fieldG op).trans (Nat.div_eq_of_lt h))
    have hd : decode op = decode0 op := by simp only [decode, hg]
    rw [hd, decode0_eq_none]
  · have hn : n ≠ 0x0#4 := hn
    simp [decode, hn]

/-- Settles O5: along the groups of R63, each in the numbers of its selector. -/
theorem unknownWords : Obligations.UnknownWords := by
  intro op
  simp only [← toNat_fieldG, ← toNat_fieldN, ← toNat_fieldKK]
  unfold decode
  split
  case h_1 hg => simp [hg, decode0_eq_none, ← BitVec.toNat_inj]
  case h_2 hg | h_3 hg | h_4 hg | h_5 hg | h_7 hg | h_8 hg | h_11 hg | h_12 hg | h_13 hg | h_14 hg => simp [hg]
  case h_6 hg | h_10 hg => simp [hg, ← BitVec.toNat_inj]
  case h_9 hg => simp [hg, decode8_eq_none]
  case h_15 hg => simp [hg, decodeE_eq_none]
  case h_16 =>
    have hg : fieldG op = 0xF#4 := by
      generalize fieldG op = g at *
      decide +revert
    simp [hg, decodeF_eq_none]

/-- Settles O6: the decoder is evaluated on each of the ten words. -/
theorem sampleWordsDecode : Obligations.SampleWordsDecode := by
  unfold Obligations.SampleWordsDecode
  decide

end Sys2Proof.Machine

/-! PROOFS. Arithmetic (spec/40_arith_logic.md): the subtractions, and VF as an operand or destination of a flag-writing row. -/

namespace Sys2Proof.Machine

/-! ### 8xy5 and 8xy7 -/

theorem greaterFlag_eq_ite (a b : Byte) : greaterFlag a b = if a.toNat > b.toNat then 1 else 0 := by
  simp only [greaterFlag, flagByte, decide_eq_true_eq]

/-- The two subtractions: with VF written first, `V[x]` takes the difference of the registers `a` and `b` as that write left
them (R108, R110; decision D3). -/
theorem difference_spec (s : State) (x a b : Reg) (f : Byte) :
    let r := s.advance.setVF f
    let t := r.setV x (r.getV a - r.getV b)
    let w : Reg → Nat := fun q => if q = 15 then f.toNat else (s.getV q).toNat
    (t.getV x).toNat = (w a + 256 - w b) % 256 ∧ (x ≠ 15 → t.getV 15 = f) ∧
      t.pc = s.pc + 2 ∧ KeepsRegs [x, 15] s t ∧ KeepsAllBut [.regs, .pc] s t := by
  obtain ⟨hx, hrest⟩ := setVF_setV_spec s x f ((s.advance.setVF f).getV a - (s.advance.setVF f).getV b)
  have hdiff : 2 ^ 8 - ((s.advance.setVF f).getV b).toNat + ((s.advance.setVF f).getV a).toNat =
      ((s.advance.setVF f).getV a).toNat + 256 - ((s.advance.setVF f).getV b).toNat := by omega
  refine ⟨?_, hrest⟩
  rw [hx, BitVec.toNat_sub, hdiff, toNat_getV_setVF, toNat_getV_setVF]

/-- Settles O20: the flag compares the registers as they were, and the difference reads them after VF is written. -/
theorem subtractWithFlag : Obligations.SubtractWithFlag := by
  intro x y s
  constructor
  · refine ⟨decodeOfEncode (.sub x y), _, rfl, ?_⟩
    rw [greaterFlag_eq_ite]
    exact difference_spec s x x y _
  · refine ⟨decodeOfEncode (.subn x y), _, rfl, ?_⟩
    rw [greaterFlag_eq_ite]
    exact difference_spec s x y x _

/-! ### VF as an operand or destination -/

theorem Completes.imp {i : Instr} {s : State} {p q : State → Prop} (h : Completes i s p) (hpq : ∀ t, p t → q t) :
    Completes i s q :=
  let ⟨t, he, ht⟩ := h
  ⟨t, he, hpq t ht⟩

theorem toNat_ite_one_zero (p : Prop) [Decidable p] : (if p then 1 else 0 : Byte).toNat = if p then 1 else 0 := by
  split <;> rfl

/-- Settles O22: each column of the table is the rule of the instruction at those registers. -/
theorem flagRegisterAliasing : Obligations.FlagRegisterAliasing := by
  intro x y s
  obtain ⟨⟨-, hsub⟩, -, hsubn⟩ := subtractWithFlag x y s
  obtain ⟨⟨-, hshr⟩, -, hshl⟩ := shiftByOne x y s
  refine ⟨(addWithCarry x y s).2.imp ?_, hsub.imp ?_, hshr.imp ?_, hsubn.imp ?_, hshl.imp ?_⟩ <;> rintro t ⟨hx, hf, -⟩
  case refine_1 =>
    refine ⟨fun h k => ⟨hx, ?_⟩, fun h k => ?_, fun h k => ⟨?_, ?_⟩, fun h k => ?_⟩
    · rw [hf h, toNat_ite_one_zero]
    · rwa [h] at hx
    · rwa [k] at hx
    · rw [hf h, k, toNat_ite_one_zero]
    · rwa [h, k, ← Nat.two_mul] at hx
  case refine_2 | refine_4 =>
    simp only [toNat_ite_one_zero] at hx
    refine ⟨fun h k => ⟨?_, ?_⟩, fun h k => ?_, fun h k => ⟨?_, ?_⟩, fun h k => ?_⟩
    · rwa [if_neg h, if_neg k] at hx
    · rw [hf h, toNat_ite_one_zero]
    · rwa [if_pos h, if_neg k, h] at hx
    · rwa [if_neg h, if_pos k, k] at hx
    · rw [hf h, k, toNat_ite_one_zero]
    · rw [if_pos h, if_pos k, Nat.add_sub_cancel_left, h] at hx
      exact hx
  case refine_3 | refine_5 =>
    refine ⟨fun h => ⟨?_, hf h⟩, fun h => ?_⟩
    · rwa [if_neg h] at hx
    · rw [if_pos h, h] at hx
      omega

end Sys2Proof.Machine

/-! PROOFS. Control flow (spec/41_control_flow.md): the call, the jump with offset, and the jump to its own address. -/

namespace Sys2Proof.Machine

/-! ### 2nnn and Bnnn -/

/-- Settles O25: a stack that is not full takes the entry, and a full one raises. -/
theorem callPushes : Obligations.CallPushes := by
  intro nnn s
  refine ⟨decodeOfEncode (.call nnn), fun h => ?_, fun h => exec_of_fails (.call nnn h)⟩
  obtain ⟨t, he, hentry, hothers, hsp, hpc, hk⟩ := exec_call_of_not_full nnn h
  exact ⟨t, he, hentry, hothers, hsp, hpc ▸ toNat_addrImm nnn, hk⟩

/-- Settles O29: the sum of a byte and a 12-bit address fits in PC, so it is not reduced. -/
theorem jumpWithOffset : Obligations.JumpWithOffset := fun nnn s =>
  ⟨decodeOfEncode (.jpV0 nnn), _, rfl, toNat_offsetTarget (s.getV 0) nnn, keeps_advance_setPc s _⟩

/-! ### A jump to its own address -/

/-- Settles O31: the jump sets PC to where it stands, so only the tick that ends the cycle is left. -/
theorem selfJumpOnlyTicks : Obligations.SelfJumpOnlyTicks := by
  rintro s hf hm ⟨nnn, hfetch, hpc⟩
  have hself : exec (.jp nnn) s = .next s := by
    have hstay : s.advance.setPc s.pc = s := rfl
    rw [hpc] at hstay
    exact congrArg Host.Outcome.next hstay
  have hstep : step s = .next s.tick := by
    rw [step_coupled hf hm, cycle_of_exec_next hfetch (decodeOfEncode (.jp nnn)) hself, endCycle_of_coupled hf hm]
  exact ⟨s.tick, hstep, ⟨nnn, hfetch, hpc⟩, countDown_toNat s.dt, countDown_toNat s.st, keeps_tick s⟩

end Sys2Proof.Machine

/-! PROOFS. The draw (spec/42_draw_display.md R141 to R143): the pixels that Dxyn inverts and the collisions it reports. -/

namespace Sys2Proof.Machine

/-! ### The pixels of a sprite -/

/-- Whether a sprite with the rows `bs`, drawn from row `y` and column `x` on, covers a pixel of the grid with a set bit. -/
def spriteCovers (bs : List Byte) (y x q p : Nat) : Bool :=
  decide (y ≤ q ∧ q < 32 ∧ x ≤ p ∧ p < 64) && (spriteBits (bs.getD (q - y) 0)).getD (p - x) false

theorem Display.pixel_xorSprite (d : Display) (y x : Nat) (bs : List Byte) (q p : Nat) :
    (d.xorSprite y x bs).1.pixel q p = (d.pixel q p ^^ spriteCovers bs y x q p) :=
  (d.xorSprite_spec y x bs).1 q p

/-- The collision bit: a covered pixel was on (R143). No pixel off the grid is on, so the grid need not be asked for. -/
theorem Display.xorSprite_collision (d : Display) (y x : Nat) (bs : List Byte) :
    (d.xorSprite y x bs).2 = true ↔ ∃ q p, spriteCovers bs y x q p = true ∧ d.pixel q p = true := by
  rw [(d.xorSprite_spec y x bs).2]
  constructor
  · rintro ⟨r, k, hbit, hon⟩
    have hgrid : y + r < 32 ∧ x + k < 64 := by
      by_contra h
      simp [d.pixel_off_grid _ _ h] at hon
    exact ⟨y + r, x + k, by simpa [spriteCovers, hgrid] using hbit, hon⟩
  · rintro ⟨q, p, hcov, hon⟩
    simp only [spriteCovers, Bool.and_eq_true, decide_eq_true_eq] at hcov
    obtain ⟨⟨hy, -, hx, -⟩, hbit⟩ := hcov
    refine ⟨q - y, p - x, hbit, ?_⟩
    rwa [Nat.add_sub_cancel' hy, Nat.add_sub_cancel' hx]

/-- Whether a Dxyn covers a pixel with a set bit of its sprite. -/
def drawCovers (s : State) (x y : Reg) (n : BitVec 4) (q p : Nat) : Bool :=
  spriteCovers (s.mem.readBytes (s.ea 0) n.toNat) (anchorY (s.getV y)) (anchorX (s.getV x)) q p

/-- The covered pixels in numbers: bit `7 - c` of the byte at `I + r` is the pixel `c` to the right and `r` below the anchor
(R141, R142). -/
theorem drawCovers_iff {s : State} {x y : Reg} {n : BitVec 4} {q p : Nat} : drawCovers s x y n q p = true ↔
    ∃ r c : Nat, r < n.toNat ∧ c < 8 ∧ q = (s.getV y).toNat % 32 + r ∧ p = (s.getV x).toNat % 64 + c ∧ q ≤ 31 ∧ p ≤ 63 ∧
      (s.mem.read (s.ea r)).getLsbD (7 - c) = true := by
  rw [drawCovers, spriteCovers, Bool.and_eq_true, decide_eq_true_eq, getD_spriteBits, Bool.and_eq_true, decide_eq_true_eq,
    Memory.getD_readBytes, anchorX, anchorY]
  constructor
  · rintro ⟨⟨hy, hq, hx, hp⟩, hc, hbit⟩
    split at hbit
    · next hr =>
      exact ⟨_, _, hr, hc, (Nat.add_sub_cancel' hy).symm, (Nat.add_sub_cancel' hx).symm, Nat.le_of_lt_succ hq,
        Nat.le_of_lt_succ hp, hbit⟩
    · simp at hbit
  · rintro ⟨r, c, hr, hc, rfl, rfl, hq, hp, hbit⟩
    rw [Nat.add_sub_cancel_left, Nat.add_sub_cancel_left, if_pos hr]
    exact ⟨⟨Nat.le_add_right _ _, Nat.lt_succ_of_le hq, Nat.le_add_right _ _, Nat.lt_succ_of_le hp⟩, hc, hbit⟩

/-! ### Dxyn -/

/-- What a Dxyn in bounds leaves: the covered pixels inverted, VF by whether one of them was on, PC + 2, and all else kept
(R141 to R143). -/
structure Drawn (s : State) (x y : Reg) (n : BitVec 4) (t : State) : Prop where
  pixel : ∀ q p : Nat, t.disp.pixel q p = (s.disp.pixel q p ^^ drawCovers s x y n q p)
  hit : (∃ q p : Nat, drawCovers s x y n q p = true ∧ s.disp.pixel q p = true) → t.getV 15 = 1
  miss : (¬∃ q p : Nat, drawCovers s x y n q p = true ∧ s.disp.pixel q p = true) → t.getV 15 = 0
  pc : t.pc = s.pc + 2
  regs : KeepsRegs [15] s t
  keeps : KeepsAllBut [.regs, .disp, .pc] s t

theorem exec_drw_drawn {x y : Reg} {n : BitVec 4} {s : State} (h : n = 0 ∨ s.i.toNat + n.toNat - 1 ≤ 4095) :
    ∃ t, exec (.drw x y n) s = .next t ∧ Drawn s x y n t := by
  have hr : s.rangeFault n.toNat = none := State.rangeFault_eq_none.mpr (h.imp (congrArg BitVec.toNat) (by omega))
  have hcoll := s.disp.xorSprite_collision (anchorY (s.getV y)) (anchorX (s.getV x)) (s.mem.readBytes (s.ea 0) n.toNat)
  have he := exec_drw_of_inBounds (x := x) (y := y) hr
  refine ⟨_, he, fun q p => Display.pixel_xorSprite _ _ _ _ q p, fun hhit => ?_, fun hmiss => ?_, rfl,
    keepsRegs_setV flagReg _ fun _ => rfl, ?_⟩
  · rw [State.setVF_eq, State.getV_setV_same, hcoll.mpr hhit]
    rfl
  · rw [State.setVF_eq, State.getV_setV_same, Bool.eq_false_iff.mpr (mt hcoll.mp hmiss)]
    rfl
  · exact (((keeps_advance s).trans (keeps_setDisp _ _)).trans (keeps_setV _ flagReg _)).mono (by simp)

/-- Settles O33: a draw in bounds inverts the covered pixels, which in numbers are those of the statement. -/
theorem drawSprite : Obligations.DrawSprite := by
  intro x y n s
  refine ⟨decodeOfEncode (.drw x y n), fun h => ?_, fun hn h => ?_⟩
  · obtain ⟨t, he, hd⟩ := exec_drw_drawn (x := x) (y := y) h
    refine ⟨t, he, fun q p hhit => ?_, fun q p hhit => ?_, fun ⟨q, p, hhit, hon⟩ => ?_, fun hoff => ?_, hd.pc, hd.regs,
      hd.keeps⟩
    · rw [hd.pixel, drawCovers_iff.mpr hhit, Bool.xor_true]
    · rw [hd.pixel, Bool.eq_false_iff.mpr (mt drawCovers_iff.mp hhit), Bool.xor_false]
    · exact hd.hit ⟨q, p, drawCovers_iff.mpr hhit, hon⟩
    · refine hd.miss fun ⟨q, p, hcov, hon⟩ => ?_
      simp [hoff q p (drawCovers_iff.mp hcov)] at hon
  · have hn0 : n.toNat ≠ 0 := fun h0 => hn (BitVec.eq_of_toNat_eq h0)
    exact exec_of_fails (.drw x y n _ (State.rangeFault_eq_some.mpr ⟨hn0, by omega, rfl⟩))

/-- A draw whose anchor is not in VF leaves what the same draw reads, so it covers the same pixels again. -/
theorem Drawn.covers_again {s t : State} {x y : Reg} {n : BitVec 4} (h : Drawn s x y n t) (hx : x ≠ 15) (hy : y ≠ 15)
    (q p : Nat) : drawCovers t x y n q p = drawCovers s x y n q p := by
  have hi : t.i = s.i := h.keeps .index (by simp)
  have hmem : ∀ a : Nat, t.mem.read a = s.mem.read a := h.keeps .mem (by simp)
  rw [Bool.eq_iff_iff, drawCovers_iff, drawCovers_iff, h.regs x (by simpa using hx), h.regs y (by simpa using hy)]
  simp only [State.ea, hi, hmem]

/-- Settles O34: the second draw inverts the same pixels back, and a pixel that the first one turned on collides. -/
theorem drawTwiceRestores : Obligations.DrawTwiceRestores := by
  intro x y n s hx hy h
  obtain ⟨t, ht, hst⟩ := exec_drw_drawn (x := x) (y := y) h
  have hi : t.i = s.i := hst.keeps .index (by simp)
  obtain ⟨u, hu, htu⟩ := exec_drw_drawn (s := t) (x := x) (y := y) (hi ▸ h)
  have hcov := hst.covers_again hx hy
  refine ⟨t, ht, u, hu, fun q p => ?_, fun ⟨q, p, hoff, hon⟩ => ?_, fun hnone => ?_⟩
  · rw [htu.pixel, hcov, hst.pixel, Bool.xor_assoc, Bool.xor_self, Bool.xor_false]
  · have hc : drawCovers s x y n q p = true := by rwa [hst.pixel, hoff, Bool.false_xor] at hon
    exact htu.hit ⟨q, p, (hcov q p).trans hc, hon⟩
  · refine htu.miss fun ⟨q, p, hc, hon⟩ => ?_
    rw [hcov] at hc
    have hoff : s.disp.pixel q p = false := by simpa [hst.pixel, hc] using hon
    rw [hnone q p hoff] at hon
    cases hon

end Sys2Proof.Machine

/-! PROOFS. Memory (spec/43_index_memory.md): the rows that store and load bytes at I. -/

namespace Sys2Proof.Machine

/-! ### Fx33, Fx55, Fx65 -/

/-- The rows that store: the bytes are at `I` upward, and nothing else but PC changes (R153, R154). -/
theorem setMem_spec (s : State) {bs : List Byte} (hin : s.i.toNat + bs.length ≤ 4096) :
    let t := s.advance.setMem (s.mem.writeBytes (s.ea 0) bs)
    (∀ k < bs.length, t.mem.read (s.ea k) = bs.getD k 0) ∧ t.pc = s.pc + 2 ∧ KeepsMemOutside (s.ea 0) bs.length s t ∧
      KeepsAllBut [.mem, .pc] s t :=
  ⟨fun _ hk => Memory.read_writeBytes_inside s.mem hk hin, rfl,
   fun b hb => Memory.read_writeBytes_outside s.mem (s.ea 0) b bs hb,
   ((keeps_advance s).trans (keeps_setMem _ _)).mono (by simp)⟩

theorem exec_ldB {x : Reg} {s : State} (h : s.i.toNat ≤ 4093) : exec (.ldB x) s =
    .next (s.advance.setMem (s.mem.writeBytes (s.ea 0) (decimalDigits (s.getV x)))) := by
  have hr : s.rangeFault 3 = none := State.rangeFault_eq_none.mpr (by omega)
  simp only [exec, execLdB, hr]

/-- Settles O37: each digit is below 256, so its byte reads as the digit. -/
theorem storeDecimalDigits : Obligations.StoreDecimalDigits := by
  intro x s
  refine ⟨decodeOfEncode (.ldB x), fun h => ?_,
    fun h => exec_of_fails (.ldB x _ (State.rangeFault_eq_some.mpr ⟨by decide, by omega, rfl⟩))⟩
  obtain ⟨hread, hrest⟩ := setMem_spec s (bs := decimalDigits (s.getV x)) (Nat.add_le_add_right h 3)
  have hv := (s.getV x).isLt
  refine ⟨_, exec_ldB h, ?_, ?_, ?_, hrest⟩
  · rw [hread 0 (by decide : 0 < 3)]
    exact Nat.mod_eq_of_lt (by omega)
  · rw [hread 1 (by decide : 1 < 3)]
    exact Nat.mod_eq_of_lt (by omega)
  · rw [hread 2 (by decide : 2 < 3)]
    exact Nat.mod_eq_of_lt (by omega)

theorem rangeFault_of_lt {x : Reg} {s : State} (h : 4095 < s.i.toNat + x.val) :
    s.rangeFault (x.val + 1) = some (max s.i.toNat 4096) :=
  State.rangeFault_eq_some.mpr ⟨Nat.succ_ne_zero _, Nat.succ_lt_succ h, rfl⟩

/-- Settles O38: the bytes written at `I` upward are the registers up to `V[x]`. -/
theorem storeRegisters : Obligations.StoreRegisters := by
  intro x s
  refine ⟨decodeOfEncode (.storeRegs x), fun h => ?_, fun h => exec_of_fails (.storeRegs x _ (rangeFault_of_lt h))⟩
  have hlen : (s.regBytes (x.val + 1)).length = x.val + 1 := by simp [State.regBytes]
  obtain ⟨-, hpc, hmem, hk⟩ := setMem_spec s (bs := s.regBytes (x.val + 1)) (by omega)
  rw [hlen] at hmem
  exact ⟨_, exec_storeRegs h, fun k hkx => read_storedRegs h hkx, hpc, hmem, hk⟩

theorem exec_loadRegs {x : Reg} {s : State} (h : s.i.toNat + x.val ≤ 4095) :
    exec (.loadRegs x) s = .next (s.advance.setRegs 0 (s.mem.readBytes (s.ea 0) (x.val + 1))) := by
  have hr : s.rangeFault (x.val + 1) = none := State.rangeFault_eq_none.mpr (by omega)
  simp only [exec, execLoadRegs, hr]

/-- A register after the loads of Fx65: the byte at its place up to `V[x]`, and above it the old value. -/
theorem getV_loadedRegs (s : State) (x k : Reg) :
    (s.advance.setRegs 0 (s.mem.readBytes (s.ea 0) (x.val + 1))).getV k =
      if k ≤ x then s.mem.read (s.ea k.val) else s.getV k := by
  rw [State.getV_setRegs, if_pos (Nat.zero_le _), Memory.getD_readBytes]
  exact if_congr Nat.lt_succ_iff rfl rfl

/-- Settles O39: the registers up to `V[x]` take the bytes read, and the others keep theirs. -/
theorem loadRegisters : Obligations.LoadRegisters := by
  intro x s
  refine ⟨decodeOfEncode (.loadRegs x), fun h => ?_, fun h => exec_of_fails (.loadRegs x _ (rangeFault_of_lt h))⟩
  refine ⟨_, exec_loadRegs h, fun k hk => ?_, fun k hk => ?_, ?_, ?_⟩
  · rw [getV_loadedRegs, if_pos hk]
  · rw [getV_loadedRegs, if_neg (not_le.mpr hk)]
  · rw [State.setRegs_pc, State.advance_pc]
  · exact ((keeps_advance s).trans (keeps_setRegs _ 0 _)).mono (by simp)

end Sys2Proof.Machine
